-- ==== Sys2Proof/Word.lean ====
section
/-! DEFINITION. The two widths the spec gives the core: the 16-bit word and the 7-bit address field (00_scope.md R7, R9). -/

namespace Sys2Proof

/-- A 16-bit word: the PC, a ROM word, an instruction, a word of the register file (R7, `WORD`). -/
abbrev Word := BitVec 16

/-- An instruction's address field, 7 bits, unsigned (R7, `ADDR_BITS`; R84: no offset, scaling or sign). -/
abbrev Addr := BitVec 7

end Sys2Proof
end

