-- ==== Sys2Proof/Config.lean ====
section
/-! DEFINITION. The parameters of the core that the spec fixes (00_scope.md R7), the register-file address map (10_state.md R23), and what a construction is given (R7, R184). -/

namespace Sys2Proof.Config

/-- `NCELLS`, physical register-file cells, addresses 0 to 142 (R7, R20). -/
abbrev nCells : Nat := 143

/-- Address of the virtual cell, one past the last physical cell (R22). -/
abbrev virtualCell : Nat := 143

/-- `RESET_FILL`, the value at reset of every cell that no source rule sets (R7, R41; the spec's decision D1, entry 3). -/
abbrev resetFill : Bool := false

/-- `PAGE_FIRST_CELL`, the cell holding the page number's most significant bit (R7, R61; D6). -/
abbrev pageFirstCell : Nat := 129

/-- `PAGE_WIDTH`, bits in the page number (R7, R61; D6). -/
abbrev pageWidth : Nat := 9

/-- `PAGE_SHIFT`, left shift of the page number in the effective ROM index (R7, R61; D6). -/
abbrev pageShift : Nat := 8

/-- First cell of the PC word; cells 0 to 15 are the PC, cell 0 most significant (R23, R27). -/
abbrev pcCell : Nat := 0

/-- IN_BIT (R23, R29). -/
abbrev inBitCell : Nat := 16

/-- IN_READY (R23, R30). -/
abbrev inReadyCell : Nat := 17

/-- OUT_BIT (R23, R31). -/
abbrev outBitCell : Nat := 18

/-- OUT_READY (R23, R32). -/
abbrev outReadyCell : Nat := 19

/-- First hidden configuration cell; the paging read starts here (R23, R33, R61). -/
abbrev hiddenCell : Nat := 128

/-- How many more step boundaries the input device lets pass between its `n`-th free completion and the next, while a request
is outstanding. Nothing is known of it but that it is a natural number, so every wait ends (R179, U11, D18; entry 5). -/
opaque freeWait : Nat → Nat

/-- The bit of the input device's `n`-th free completion, a free draw (R179, U10; entry 5). -/
opaque freeBit : Nat → Bool

/-- The input device as the core meets it (R179, R184). First it follows `schedule`, one entry for each coming step boundary:
`none` for no completion and `some v` for a completion with `v`, which counts only while a request is outstanding (R178).
After that it is free for ever: it lets `wait` more boundaries pass while a request is outstanding, completes with a bit of its
choice, and goes on so, `draws` counting its free completions. A device that is due at the first boundary after each request
is a synchronous one (entry 5). -/
structure InputDevice where
  schedule : List (Option Bool)
  wait : Nat
  draws : Nat
  deriving DecidableEq, Repr

/-- The output device as the core meets it (R176, R184): it takes each bit and gives nothing back, so it has no data. -/
structure OutputDevice where
  deriving DecidableEq, Repr

/-- What construction is given (R7, R166, R184): a candidate ROM, not yet known to be a sequence of 16-bit words; the paging
flag; the two device capabilities, `none` for one that is absent or malformed. -/
structure Construction where
  rom : List Nat
  paging : Bool
  input : Option InputDevice
  output : Option OutputDevice
  deriving DecidableEq, Repr

end Sys2Proof.Config
end

