-- ==== Sys2Proof/Syntax.lean ====
section
/-! DEFINITION. The instructions of the core: the four rows of opcode_table.json (30_encoding.md R82), each with its fields `A` and `B` (R80, R84). -/

namespace Sys2Proof

/-- The ISA has exactly four instructions (R1, R82). -/
inductive Instr where
  /-- `copy A, B`: `a` source word address, `b` destination word address (R120). -/
  | copy (a b : Addr)
  /-- `load A, B`: `a` low bits of a ROM index, not a register address; `b` destination word address (R122). -/
  | load (a b : Addr)
  /-- `nand A, B`: `a` source bit address, `b` source and destination bit address (R140). -/
  | nand (a b : Addr)
  /-- `xor A, B`: `a` source bit address, `b` source and destination bit address (R141). -/
  | xor (a b : Addr)
  deriving DecidableEq, Repr

end Sys2Proof
end

