-- ==== Sys2Proof/WellFormed.lean ====
section
/-! DEFINITION. Well-formedness: of instructions (every one is, 30_encoding.md R85, R87) and of what construction is given (60_exceptions.md R166). -/

namespace Sys2Proof

/-- Every value of `A` and `B` is a legal operand of every opcode (R87): the 7-bit fields hold no other value (R85), so no
instruction is refused here. -/
def Instr.wellFormed (i : Instr) : Bool :=
  match i with
  | .copy _ _ => true
  | .load _ _ => true
  | .nand _ _ => true
  | .xor _ _ => true

/-- A well-formed ROM is a non-empty sequence of unsigned 16-bit words (R166). -/
def romWellFormed (rom : List Nat) : Bool :=
  !rom.isEmpty && rom.all fun v => decide (v < 65536)

/-- Both device capabilities are present and well formed (R166). -/
def devicesWellFormed (c : Config.Construction) : Bool :=
  c.input.isSome && c.output.isSome

end Sys2Proof
end

