-- ==== Sys2Proof/Decode.lean ====
section
/-! DEFINITION. The instruction word (30_encoding.md): field extraction, the total decoder, and after it the encoder. -/

namespace Sys2Proof

/-- `A = w[15:9]` (R80). -/
def fieldA (w : Word) : Addr := w.extractLsb' 9 7

/-- `B = w[8:2]` (R80). -/
def fieldB (w : Word) : Addr := w.extractLsb' 2 7

/-- `OP = w[1:0]` (R80). -/
def fieldOp (w : Word) : BitVec 2 := w.extractLsb' 0 2

/-- Decoding by `OP` alone (R82). Total: all 65536 words are instructions, none is refused (R87). -/
def decode (w : Word) : Instr :=
  match fieldOp w with
  | 0#2 => .copy (fieldA w) (fieldB w)
  | 1#2 => .load (fieldA w) (fieldB w)
  | 2#2 => .nand (fieldA w) (fieldB w)
  | 3#2 => .xor (fieldA w) (fieldB w)

/-- The word the host numbers `w`, an instruction of `nbits` bits: bits above `nbits` are 0. An instruction is exactly one
16-bit word (R81), so a number that needs more than 16 bits is no instruction. -/
def tableWord (nbits w : Nat) : Option Word :=
  if w % 2 ^ nbits < 65536 then some (BitVec.ofNat 16 (w % 2 ^ nbits)) else none

/-- What the decoder reads from a word numbered as opcode_table.json numbers it. -/
def decodeTableWord (nbits w : Nat) : Option Instr :=
  (tableWord nbits w).map decode

/-- The opcode map of R82, read from mnemonic to `OP`. -/
def opcodeOf (i : Instr) : BitVec 2 :=
  match i with
  | .copy _ _ => 0#2
  | .load _ _ => 1#2
  | .nand _ _ => 2#2
  | .xor _ _ => 3#2

/-- The pattern `AAAAAAABBBBBBBOO`, most significant bit first (R80). -/
def packFields (a b : Addr) (op : BitVec 2) : Word := (a ++ b) ++ op

/-- The word of an instruction (R80, R83). -/
def encode (i : Instr) : Word :=
  match i with
  | .copy a b => packFields a b (opcodeOf i)
  | .load a b => packFields a b (opcodeOf i)
  | .nand a b => packFields a b (opcodeOf i)
  | .xor a b => packFields a b (opcodeOf i)

end Sys2Proof
end

