-- ==== Sys2Proof/Machine/State.lean ====
section
/-! DEFINITION. The state of the core (10_state.md), the configuration it carries (00_scope.md R7, R8), the input-device agent and the record of interface events (60_exceptions.md R179, R185), as plain data; and the state after construction (R41, R200). -/

namespace Sys2Proof.Machine

/-- The causes of the terminal fault state (60_exceptions.md R163, R164, R169), recorded in STATUS. The spec describes the
state a fault leaves, so a step that faults answers that state as its next state (entry 7); no step answers a fault
outcome of the host's. Safe: no run executes an instruction past one. -/
inductive Fault where
  /-- Raised by the fetch of a step whose `oldPc = p` is at or beyond `ROM_LEN` (R102, R163). Safe: the core gives the read no value. -/
  | fetchOutOfRange (p : Word)
  /-- Raised by a `load` whose effective ROM index `i` is at or beyond `ROM_LEN` (R122, R164). Safe: the core gives the read no value. -/
  | loadOutOfRange (i : Nat)
  deriving DecidableEq, Repr

/-- A failed construction (R166). -/
inductive ConstructionError where
  /-- The ROM is not a non-empty sequence of 16-bit words. -/
  | invalidRom
  /-- A device capability is absent or malformed. -/
  | invalidDevice
  deriving DecidableEq, Repr

/-- Reasons for which the model refuses. -/
inductive Refusal where
  /-- Raised by `exec` for an instruction without a meaning; no arm of this model does. Safe. -/
  | notModelled (mnemonic : String)
  /-- Raised by construction, and by a step asked of a state that holds no ROM: no core exists (R166, D17). Safe. -/
  | noCore (e : ConstructionError)
  deriving DecidableEq, Repr

/-- STATUS (R38). -/
inductive Status where
  | running
  | halted
  | faulted (c : Fault)
  deriving DecidableEq, Repr

/-- An event at the core's interface (R185). -/
inductive Event where
  /-- The core asks the input device for a bit (R177, R200 step 5). -/
  | inputRequest
  /-- The input device completes the outstanding request with `v` (R178). -/
  | inputCompletion (v : Bool)
  /-- The core sends `v` to the output device (R175). -/
  | output (v : Bool)
  deriving DecidableEq, Repr

/-- The ROM image, `ROM_LEN` words of 16 bits (R7, R58; the ROM has no bytes, R57). The words are kept as pairs of index and
word in one canonical form, `Memory.wf` of Machine/Ops.lean; an index below `len` that is not listed holds 0x0000. Every ROM
has exactly one such form, so equal ROMs are equal data (entry 1). -/
structure Memory where
  len : Nat
  words : List (Nat × Word)
  deriving DecidableEq, Repr

/-- No ROM has been supplied. -/
def Memory.empty : Memory := { len := 0, words := [] }

/-- The register file: 143 cells of one Boolean each, addresses 0 to 142 (R10, R20, R21). -/
abbrev Cells := Vector Bool 143

/-- The state of the machine. -/
structure State where
  /-- The register file, cells 0 to 142 (R20); the PC and the I/O flags are cells of it (R23, R27). -/
  regs : Cells
  /-- AWAITING (R36). -/
  awaiting : Bool
  /-- STATUS (R38). -/
  status : Status
  /-- Configuration: the ROM (R7). No step changes it. -/
  rom : Memory
  /-- Configuration: PAGING (R7, R63). No step changes it. -/
  paging : Bool
  /-- The input-device agent: what it does at the coming step boundaries (R179, entry 5). The model's own field. -/
  inputDevice : Config.InputDevice
  /-- The interface events so far, oldest first (R185, R190, entry 6). The model's own field. -/
  events : List Event
  deriving DecidableEq, Repr

/-- The register file after steps 2 and 3 of construction: every cell `RESET_FILL`, the PC word 0 (R200, R41). -/
def resetCells : Cells :=
  ⟨(List.replicate 16 false ++ List.replicate 127 Config.resetFill).toArray, by simp⟩

/-- The state that construction reaches with this configuration, its construction-time input request outstanding (R200 steps
2 to 5, R41). -/
def State.constructed (rom : Memory) (paging : Bool) (inputDevice : Config.InputDevice) : State :=
  { regs := resetCells
    awaiting := true
    status := .running
    rom := rom
    paging := paging
    inputDevice := inputDevice
    events := [.inputRequest] }

/-- The input device of the reset state: it has not completed, lets one boundary pass and is free after it (entry 5). -/
def resetDevice : Config.InputDevice := { schedule := [], wait := 1, draws := 0 }

/-- The reset state of R41, with nothing supplied from outside: no ROM (entry 2), PAGING false (entry 4), an input device
that has not completed (entry 5). -/
def State.reset : State := State.constructed Memory.empty false resetDevice

end Sys2Proof.Machine
end

