-- ==== Sys2Proof/Machine/Ops.lean ====
section
/-! DEFINITION. The named operations over the register file (20_memory.md R51 to R57), the program counter (10_state.md R27), the ROM (R58) and the status (10_state.md R38). -/

namespace Sys2Proof.Machine

/-- A physical cell, or false for the virtual cell 143 (R10, R22). -/
def cellAt (x : Cells) (i : Nat) : Bool := x.toList.getD i false

/-- The register file with `b` in cell `i`. There is no storage beyond cell 142 (R22). -/
def setCellAt (x : Cells) (i : Nat) (b : Bool) : Cells := ⟨(x.toList.set i b).toArray, by simp⟩

/-- The next `n` cells of a list as a number below the bits `acc` already read, the first cell most significant; past the end
of the list a cell reads false (R22). -/
def bitsValue (acc n : Nat) (cells : List Bool) : Nat :=
  match cells, n with
  | [], n => acc <<< n
  | _ :: _, 0 => acc
  | b :: rest, n + 1 => bitsValue (2 * acc + b.toNat) n rest

/-- The cells of a list, the first of them cell `pos`, with the word `v` in the 16 cells from `a` on: cell `a + k` gets bit
`15 - k` of `v` (R53). -/
def spliceWord (a : Nat) (v : Word) (pos : Nat) (cells : List Bool) : List Bool :=
  match cells with
  | [] => []
  | b :: rest =>
    (if a ≤ pos ∧ pos < a + 16 then v.getMsbD (pos - a) else b) :: spliceWord a v (pos + 1) rest

theorem length_spliceWord (a : Nat) (v : Word) (pos : Nat) (cells : List Bool) :
    (spliceWord a v pos cells).length = cells.length := by
  induction cells generalizing pos with
  | nil => rfl
  | cons b rest ih => simp [spliceWord, ih]

/-- The register file with `v` in the word at `a` (R53). -/
def setWordAt (x : Cells) (a : Nat) (v : Word) : Cells :=
  ⟨(spliceWord a v 0 x.toList).toArray, by simp [length_spliceWord]⟩

/-- `x[i]`, a bit read (R10, R51). -/
def State.cell (s : State) (i : Nat) : Bool := cellAt s.regs i

/-- `x[i] <- b`, a bit write (R10, R51). -/
def State.setCell (s : State) (i : Nat) (b : Bool) : State :=
  { s with regs := setCellAt s.regs i b }

/-- `word(a)`: cells `a` to `a + 15`, cell `a` most significant (R52, R57). -/
def State.readWord (s : State) (a : Nat) : Word := BitVec.ofNat 16 (bitsValue 0 16 (s.regs.toList.drop a))

/-- `word(a) <- v`: bit `15 - k` of `v` into cell `a + k`, for `k` from 0 to 15 (R53, R57). -/
def State.writeWord (s : State) (a : Nat) (v : Word) : State :=
  { s with regs := setWordAt s.regs a v }

/-- `pc = word(0)`; the PC has no other storage (R11, R27, R28). -/
def State.pc (s : State) : Word := s.readWord Config.pcCell

/-- `pc <- v` (R11). -/
def State.setPc (s : State) (v : Word) : State := s.writeWord Config.pcCell v

/-- What a ROM index below `ROM_LEN` that is not listed holds. -/
def Memory.unlisted : Word := 0x0000#16

/-- The listed word at index `i`, or the unlisted one. -/
def Memory.lookup (words : List (Nat × Word)) (i : Nat) : Word :=
  match words with
  | [] => Memory.unlisted
  | (j, w) :: rest => if j = i then w else Memory.lookup rest i

/-- `MemRead(idx, 1)`: the word at an index below `ROM_LEN`; beyond it there is no ROM word (R12, R58). -/
def Memory.read (m : Memory) (i : Nat) : Option Word :=
  if i < m.len then some (Memory.lookup m.words i) else none

/-- The list with index `i` holding `w`, rising and without unlisted words. -/
def Memory.insert (words : List (Nat × Word)) (i : Nat) (w : Word) : List (Nat × Word) :=
  match words with
  | [] => if w = Memory.unlisted then [] else [(i, w)]
  | (j, v) :: rest =>
    if i < j then
      if w = Memory.unlisted then (j, v) :: rest else (i, w) :: (j, v) :: rest
    else if i = j then
      if w = Memory.unlisted then rest else (i, w) :: rest
    else (j, v) :: Memory.insert rest i w

/-- The ROM with `w` at index `i`, as long as that takes. The core has no such operation, the ROM is immutable (R12, R70): it
stands for the loader outside the core (R5). -/
def Memory.place (m : Memory) (i : Nat) (w : Word) : Memory :=
  { len := max m.len (i + 1), words := Memory.insert m.words i w }

/-- The listed words of the sequence `ws` from index `base` on. -/
def Memory.listed (base : Nat) (ws : List Word) : List (Nat × Word) :=
  match ws with
  | [] => []
  | w :: rest =>
    if w = Memory.unlisted then Memory.listed (base + 1) rest
    else (base, w) :: Memory.listed (base + 1) rest

/-- The ROM that holds the sequence `ws` (R7). -/
def Memory.ofWords (ws : List Word) : Memory :=
  { len := ws.length, words := Memory.listed 0 ws }

/-- Listed entries are at indices from `lo` to below `len`, strictly rising, none holding the unlisted word. -/
def Memory.wfFrom (lo len : Nat) (words : List (Nat × Word)) : Bool :=
  match words with
  | [] => true
  | (i, w) :: rest =>
    decide (lo ≤ i) && decide (i < len) && decide (w ≠ Memory.unlisted) && Memory.wfFrom (i + 1) len rest

/-- The canonical form of a ROM image. -/
def Memory.wf (m : Memory) : Bool := Memory.wfFrom 0 m.len m.words

/-- `raise Fault(c)`: the step ends in the terminal fault state with cause `c` (R13, R38). It saves, vectors and enters
nothing else (R160, R171). -/
def State.raiseFault (s : State) (c : Fault) : State := { s with status := .faulted c }

/-- `halt`: STATUS <- Halted, nothing else (R13, R161). -/
def State.halt (s : State) : State := { s with status := .halted }

/-- One more event at the interface (R185). -/
def State.emit (s : State) (e : Event) : State := { s with events := s.events ++ [e] }

end Sys2Proof.Machine
end

