-- ==== Sys2Proof/Machine/Operands.lean ====
section
/-! DEFINITION. Every operand form of the instructions (30_encoding.md R84): bit address, word address, and the ROM index of `load`, unpaged (20_memory.md R60) and paged (R61). -/

namespace Sys2Proof.Machine

/-- A bit operand: the cell with that address, 0 to 127 (R51, R84). -/
def State.bitOperand (s : State) (a : Addr) : Bool := s.cell a.toNat

/-- A bit result: written to the cell with that address (R51, R84). -/
def State.putBit (s : State) (b : Addr) (v : Bool) : State := s.setCell b.toNat v

/-- A word operand: the 16 cells from that address on, without alignment (R54, R84). -/
def State.wordOperand (s : State) (a : Addr) : Word := s.readWord a.toNat

/-- A word result: written to the 16 cells from that address on (R54, R84). -/
def State.putWord (s : State) (b : Addr) (v : Word) : State := s.writeWord b.toNat v

/-- The paging read `W <- word(128)`, whose last bit is the virtual cell (R55, R61). -/
def State.pagingRead (s : State) : Word := s.readWord Config.hiddenCell

/-- `page`: of the paging read, the `PAGE_WIDTH` bits from `PAGE_FIRST_CELL` on, that is `(W & 0x7FFF) >> 6` with the decided
parameters (R61, D6). -/
def State.pageNumber (s : State) : Nat :=
  (s.pagingRead.toNat &&& (2 ^ (Config.virtualCell + 1 - Config.pageFirstCell) - 1))
    >>> (Config.virtualCell + 1 - Config.pageFirstCell - Config.pageWidth)

/-- `EffIdx(a)`: `a` alone without paging (R60), the page above `a` with paging, not truncated (R61, R62, D7). -/
def State.effIdx (s : State) (a : Addr) : Nat :=
  if s.paging then (s.pageNumber <<< Config.pageShift) ||| a.toNat else a.toNat

end Sys2Proof.Machine
end

