-- ==== Sys2Proof/Machine/BitOps.lean ====
section
/-! DEFINITION. The bit instructions `nand` and `xor` (42_bit_ops.md). Boolean functions, no width, no overflow (R144). -/

namespace Sys2Proof.Machine

/-- Boolean NAND (R140). -/
def nandGate (x y : Bool) : Bool := !(x && y)

/-- Boolean XOR (R141). -/
def xorGate (x y : Bool) : Bool := x != y

/-- `nand A, B` (R140): `x[B] <- NOT (x[A] AND x[B])`. -/
def execNand (a b : Addr) (s : State) : Host.Outcome State Fault Refusal :=
  .next (s.putBit b (nandGate (s.bitOperand a) (s.bitOperand b)))

/-- `xor A, B` (R141): `x[B] <- x[A] XOR x[B]`. -/
def execXor (a b : Addr) (s : State) : Host.Outcome State Fault Refusal :=
  .next (s.putBit b (xorGate (s.bitOperand a) (s.bitOperand b)))

end Sys2Proof.Machine
end

