-- ==== Sys2Proof/Machine/WordOps.lean ====
section
/-! DEFINITION. The word instructions `copy` and `load` (41_word_ops.md). Each runs in phase 3 of a step, when the PC cells already hold `oldPc + 1` (40_cycle.md R104). -/

namespace Sys2Proof.Machine

/-- `copy A, B` (R120): the whole source word is read before any destination cell is written. -/
def execCopy (a b : Addr) (s : State) : Host.Outcome State Fault Refusal :=
  .next (s.putWord b (s.wordOperand a))

/-- `load A, B` (R122): the ROM word at the effective index of `A` into the word at `B`; an index without a ROM word raises
`LoadOutOfRange`, before any cell is written (R164). -/
def execLoad (a b : Addr) (s : State) : Host.Outcome State Fault Refusal :=
  match s.rom.read (s.effIdx a) with
  | some v => .next (s.putWord b v)
  | none => .next (s.raiseFault (.loadOutOfRange (s.effIdx a)))

end Sys2Proof.Machine
end

