-- ==== Sys2Proof/Machine/Dispatch.lean ====
section
/-! DEFINITION. Dispatch, phase 3 of a step (40_cycle.md R103): one arm per instruction. -/

namespace Sys2Proof.Machine

def exec (i : Instr) (s : State) : Host.Outcome State Fault Refusal :=
  match i with
  | .copy a b => Sys2Proof.Machine.execCopy a b s
  | .load a b => Sys2Proof.Machine.execLoad a b s
  | .nand a b => Sys2Proof.Machine.execNand a b s
  | .xor a b => Sys2Proof.Machine.execXor a b s

end Sys2Proof.Machine
end

