-- ==== Sys2Proof/Machine/Flags.lean ====
section
/-! DEFINITION. The core has no condition codes and no instruction computes a flag (10_state.md R34). Its flag-like cells are the I/O registers in cells 16 to 19 (R29 to R32), named here. -/

namespace Sys2Proof.Machine

/-- IN_BIT, the last bit the input device delivered (R29). -/
def State.inBit (s : State) : Bool := s.cell Config.inBitCell

/-- IN_READY (R30). -/
def State.inReady (s : State) : Bool := s.cell Config.inReadyCell

/-- OUT_BIT, the bit to send (R31). -/
def State.outBit (s : State) : Bool := s.cell Config.outBitCell

/-- OUT_READY (R32). -/
def State.outReady (s : State) : Bool := s.cell Config.outReadyCell

end Sys2Proof.Machine
end

