-- ==== Sys2Proof/Machine/Io.lean ====
section
/-! DEFINITION. The I/O handshake (60_exceptions.md R174 to R181): output service, input service, input completion, the input device's turn at a step boundary; and construction (70_reset_and_hazards.md R200), which makes the first request. -/

namespace Sys2Proof.Machine

/-- Output service (R175): if OUT_READY, send OUT_BIT and clear OUT_READY; OUT_BIT is not changed. -/
def State.outputService (s : State) : State :=
  if s.outReady then (s.emit (.output s.outBit)).setCell Config.outReadyCell false else s

/-- Input service (R177): if IN_READY is clear and no request is outstanding, AWAITING <- true and issue a request. -/
def State.inputService (s : State) : State :=
  if s.inReady = false ∧ s.awaiting = false then
    { s with awaiting := true }.emit .inputRequest
  else s

/-- Phase 5 (R107): the output service, then the input service (D8). -/
def State.service (s : State) : State := s.outputService.inputService

/-- Input completion with `v` (R178): IN_BIT <- v, IN_READY <- true, AWAITING <- false, whatever the two cells held. -/
def State.complete (s : State) (v : Bool) : State :=
  { (s.setCell Config.inBitCell v).setCell Config.inReadyCell true with awaiting := false }.emit
    (.inputCompletion v)

/-- What the input device would complete an outstanding request with at the coming step boundary; none where it lets it pass
(R179). -/
def deviceDue (d : Config.InputDevice) : Option Bool :=
  match d.schedule with
  | turn :: _ => turn
  | [] => if d.wait = 0 then some (Config.freeBit d.draws) else none

/-- The input device after a step boundary: a scheduled entry is used up; past the schedule its wait goes on only while a
request is outstanding, and where that ends it draws the next one (R179). -/
def devicePassed (d : Config.InputDevice) (awaiting : Bool) : Config.InputDevice :=
  match d.schedule with
  | _ :: rest => { d with schedule := rest }
  | [] =>
    if awaiting then
      match d.wait with
      | 0 => { d with wait := Config.freeWait d.draws, draws := d.draws + 1 }
      | n + 1 => { d with wait := n }
    else d

/-- A step boundary passes for the input device, and nothing else changes. -/
def State.deviceMoved (s : State) : State := { s with inputDevice := devicePassed s.inputDevice s.awaiting }

/-- The input device's turn at a step boundary (R179, D9): a completion that is due lands. It is accepted only while AWAITING
is true (R178, R185), in every status (R162, R165). -/
def State.deviceTurn (s : State) : State :=
  match deviceDue s.inputDevice with
  | some v => if s.awaiting then s.deviceMoved.complete v else s.deviceMoved
  | none => s.deviceMoved

/-- Construction (R166, R200): a malformed ROM or an absent device is refused, no core exists (D17); otherwise the state of
R41, in which a synchronous input device has already completed the construction-time request. The ROM is validated first
(entry 8). -/
def construct (c : Config.Construction) : Host.Outcome State Fault Refusal :=
  if romWellFormed c.rom then
    match c.input, c.output with
    | some device, some _ =>
      .next (State.constructed (Memory.ofWords (c.rom.map (BitVec.ofNat 16))) c.paging device).deviceTurn
    | _, _ => .refused (.noCore .invalidDevice)
  else .refused (.noCore .invalidRom)

end Sys2Proof.Machine
end

