-- ==== Sys2Proof/Machine/Cycle.lean ====
section
/-! DEFINITION. The cycle of the core (40_cycle.md R100 to R111), phase by phase, and the result a step returns (60_exceptions.md R169). -/

namespace Sys2Proof.Machine

/-- Phase 1 (R101): the PC word becomes `(oldPc + 1) mod 65536`. -/
def State.advancePc (s : State) : State := s.setPc (s.pc + 1#16)

/-- Phase 2's read (R102, R59): the ROM word at the full 16-bit PC, never paged; none at or beyond `ROM_LEN`. -/
def State.fetch (s : State) : Option Word := s.rom.read s.pc.toNat

/-- Phases 4 and 5 on the state `t` that phase 3 left (R105, R107): halt without service if the PC equals `oldPc`, else
service. A fault raised in phase 3 has already ended the step (R164, R168). -/
def State.finishStep (t : State) (oldPc : Word) : State :=
  match t.status with
  | .faulted _ => t
  | _ => if t.pc = oldPc then t.halt else t.service

/-- Phases 3 to 5 for the instruction `i`, on the state `s` that phase 1 left. -/
def runInstr (i : Instr) (oldPc : Word) (s : State) : Host.Outcome State Fault Refusal :=
  match exec i s with
  | .next t => .next (t.finishStep oldPc)
  | .fault c => .fault c
  | .refused r => .refused r

/-- The whole step of the core (R111). A step of a halted or faulted core changes no state (R100). A state without a ROM is
no core (R166), so the step is refused (entry 2). -/
def coreStep (s : State) : Host.Outcome State Fault Refusal :=
  match s.status with
  | .halted => .next s
  | .faulted _ => .next s
  | .running =>
    if s.rom.len = 0 then .refused (.noCore .invalidRom)
    else
      match s.fetch with
      | none => .next (s.advancePc.raiseFault (.fetchOutOfRange s.pc))
      | some w => runInstr (decode w) s.pc s.advancePc

/-- The step of the core and the step boundary after it, at which the input device has its turn (R112, R179). -/
def cycle (s : State) : Host.Outcome State Fault Refusal :=
  match coreStep s with
  | .next t => .next t.deviceTurn
  | .fault c => .fault c
  | .refused r => .refused r

/-- The result a step returns (R111, R169). -/
inductive StepResult where
  /-- `Continue` -/
  | continued
  /-- `Halted` -/
  | halted
  /-- `Fault(c)` -/
  | fault (c : Fault)
  deriving DecidableEq, Repr

/-- The result returned by a step that leaves STATUS as it is in `s` (R100, R105, R107, R163, R164; entry 7). -/
def State.result (s : State) : StepResult :=
  match s.status with
  | .running => .continued
  | .halted => .halted
  | .faulted c => .fault c

/-- The outcome codes of R169 that a step can return. -/
def StepResult.code (r : StepResult) : Nat :=
  match r with
  | .continued => 0
  | .halted => 1
  | .fault (.fetchOutOfRange _) => 2
  | .fault (.loadOutOfRange _) => 3

/-- The codes of R169 of a failed construction. -/
def ConstructionError.code (e : ConstructionError) : Nat :=
  match e with
  | .invalidRom => 4
  | .invalidDevice => 5

/-- The state in which the next step fetches the word `w`: the core runs, and the ROM holds `w` at the PC (entry 2). -/
def State.placeAtPc (s : State) (w : Word) : State :=
  { s with status := .running, rom := s.rom.place s.pc.toNat w }

end Sys2Proof.Machine
end

