-- ==== Sys2Proof/Machine/Step.lean ====
section
/-! DEFINITION. The machine's step, and the host's placement of an instruction where it fetches next. -/

namespace Sys2Proof.Machine

/-- One step: the core's cycle (40_cycle.md R111) and the step boundary after it. -/
def step (s : State) : Host.Outcome State Fault Refusal := cycle s

/-- `s` with the instruction numbered `w` where step fetches next. It stands for the loader, which is outside the core (R5). -/
def State.withFetchWord (s : State) (nbits w : Nat) : State :=
  s.placeAtPc (BitVec.ofNat 16 (w % 2 ^ nbits))

end Sys2Proof.Machine
end

