-- ==== Sys2Proof/Machine/Assembler.lean ====
section
/-! DEFINITION. The spec's assembler syntax and pseudo-instructions (30_encoding.md R89, R90; D12). They add no behaviour: every line is words of the ROM. -/

namespace Sys2Proof.Machine

/-- The pseudo-instructions of R90. -/
inductive Pseudo where
  | not (b : Addr)
  | clr (b : Addr)
  | set (b : Addr)
  | mov1 (a b : Addr)
  | nop
  | jmp (k : Addr)
  | jmpr (a : Addr)
  | halt
  | skipif (c : Addr)
  deriving DecidableEq, Repr

/-- The expansion of a pseudo-instruction (R90). -/
def Pseudo.expand (p : Pseudo) : List Instr :=
  match p with
  | .not b => [.nand b b]
  | .clr b => [.xor b b]
  | .set b => [.xor b b, .nand b b]
  | .mov1 a b => [.xor b b, .xor a b]
  | .nop => [.copy 20 20]
  | .jmp k => [.load k 0]
  | .jmpr a => [.copy a 0]
  | .halt => [.xor 15 15]
  | .skipif c => [.xor c 15]

/-- The condition under which a pseudo-instruction at ROM index `n`, executed in the state `s`, has the effect R90 gives it. For
`jmp k` it is that the ROM stores a target at `EffIdx(k)`; where it stores none, the expansion faults (R122). -/
def Pseudo.condition (p : Pseudo) (n : Nat) (s : State) : Bool :=
  match p with
  | .not _ => true
  | .clr _ => true
  | .set _ => true
  | .mov1 a b => a != b
  | .nop => true
  | .jmp k => (s.rom.read (s.effIdx k)).isSome
  | .jmpr _ => true
  | .halt => n % 2 == 0
  | .skipif c => n % 2 == 1 && decide (16 ≤ c.toNat)

/-- A line of assembly (R89): an instruction, a pseudo-instruction, or `.word v`. -/
inductive AsmLine where
  | instr (i : Instr)
  | pseudo (p : Pseudo)
  | word (v : Word)
  deriving DecidableEq, Repr

/-- The ROM words of a line (R83, R89, R90). -/
def AsmLine.words (l : AsmLine) : List Word :=
  match l with
  | .instr i => [encode i]
  | .pseudo p => p.expand.map encode
  | .word v => [v]

/-- The ROM words of a program, line by line from ROM index 0. -/
def assemble (ls : List AsmLine) : List Word := ls.flatMap AsmLine.words

/-- A digit's value in the given base. -/
def digitValue (base : Nat) (c : Char) : Option Nat :=
  let n := c.toNat
  let v :=
    if 48 ≤ n ∧ n ≤ 57 then some (n - 48)
    else if 97 ≤ n ∧ n ≤ 102 then some (n - 87)
    else if 65 ≤ n ∧ n ≤ 70 then some (n - 55)
    else none
  v.bind fun d => if d < base then some d else none

/-- The value of a non-empty string of digits. -/
def digitsValue (base : Nat) (cs : List Char) : Option Nat :=
  if cs.isEmpty then none
  else cs.foldl (fun acc c => acc.bind fun n => (digitValue base c).map fun d => n * base + d) (some 0)

/-- A number in decimal or in `0x` hexadecimal (R89). -/
def parseNumber (cs : List Char) : Option Nat :=
  match cs with
  | '0' :: 'x' :: ds => digitsValue 16 ds
  | ds => digitsValue 10 ds

/-- An operand, 0 to 127 (R83). -/
def parseAddr (cs : List Char) : Option Addr :=
  (parseNumber cs).bind fun n => if n < 128 then some (BitVec.ofNat 7 n) else none

/-- A 16-bit value (R89). -/
def parseWord (cs : List Char) : Option Word :=
  (parseNumber cs).bind fun n => if n < 65536 then some (BitVec.ofNat 16 n) else none

/-- One more character before the tokens already read; the first component is the token under way. -/
def pushChar (c : Char) (st : List Char × List (List Char)) : List Char × List (List Char) :=
  let close := if st.1.isEmpty then st.2 else st.1 :: st.2
  if c = ' ' ∨ c = '\t' then ([], close)
  else if c = ',' then ([], [','] :: close)
  else (c :: st.1, st.2)

/-- The tokens of a line: words and commas; `;` starts a comment (R89). -/
def lineTokens (cs : List Char) : List (List Char) :=
  let st := (cs.takeWhile fun c => c != ';').foldr pushChar ([], [])
  if st.1.isEmpty then st.2 else st.1 :: st.2

/-- A line `mnemonic A, B`, `mnemonic A`, `mnemonic` or `.word v`, with the mnemonics of R82 and R90; no line for a blank one;
none where the text is no line of R89. -/
def parseLine (cs : List Char) : Option (List AsmLine) :=
  match lineTokens cs with
  | [] => some []
  | [m, a, [','], b] =>
    (parseAddr a).bind fun a => (parseAddr b).bind fun b =>
      if m = ['c', 'o', 'p', 'y'] then some [.instr (.copy a b)]
      else if m = ['l', 'o', 'a', 'd'] then some [.instr (.load a b)]
      else if m = ['n', 'a', 'n', 'd'] then some [.instr (.nand a b)]
      else if m = ['x', 'o', 'r'] then some [.instr (.xor a b)]
      else if m = ['m', 'o', 'v', '1'] then some [.pseudo (.mov1 a b)]
      else none
  | [m, a] =>
    if m = ['.', 'w', 'o', 'r', 'd'] then (parseWord a).map fun v => [.word v]
    else
      (parseAddr a).bind fun a =>
        if m = ['n', 'o', 't'] then some [.pseudo (.not a)]
        else if m = ['c', 'l', 'r'] then some [.pseudo (.clr a)]
        else if m = ['s', 'e', 't'] then some [.pseudo (.set a)]
        else if m = ['j', 'm', 'p'] then some [.pseudo (.jmp a)]
        else if m = ['j', 'm', 'p', 'r'] then some [.pseudo (.jmpr a)]
        else if m = ['s', 'k', 'i', 'p', 'i', 'f'] then some [.pseudo (.skipif a)]
        else none
  | [m] =>
    if m = ['n', 'o', 'p'] then some [.pseudo .nop]
    else if m = ['h', 'a', 'l', 't'] then some [.pseudo .halt]
    else none
  | _ => none

end Sys2Proof.Machine
end

