-- ==== Sys2Proof/Machine/Peripherals.lean ====
section
/-! DEFINITION. The two parts outside the core that the spec describes for completeness (00_scope.md R5): the ROM file format (60_exceptions.md R188) and the byte-packing output device (R189). The core's step uses neither. -/

namespace Sys2Proof.Machine

/-- The ROM words of a ROM file, a flat byte stream of big-endian 16-bit words; none where its length is odd (R188). -/
def romWordsOfBytes (bytes : List (BitVec 8)) : Option (List Word) :=
  match bytes with
  | [] => some []
  | [_] => none
  | hi :: lo :: rest => (romWordsOfBytes rest).map fun ws => (hi ++ lo) :: ws

/-- The byte of eight successive output bits, the first most significant (R189). -/
def packByte (b7 b6 b5 b4 b3 b2 b1 b0 : Bool) : BitVec 8 :=
  BitVec.ofBool b7 ++ BitVec.ofBool b6 ++ BitVec.ofBool b5 ++ BitVec.ofBool b4
    ++ BitVec.ofBool b3 ++ BitVec.ofBool b2 ++ BitVec.ofBool b1 ++ BitVec.ofBool b0

/-- The bytes that the byte-packing output device has flushed after these output bits; a partial byte is not flushed (R189). -/
def packedBytes (bits : List Bool) : List (BitVec 8) :=
  match bits with
  | b7 :: b6 :: b5 :: b4 :: b3 :: b2 :: b1 :: b0 :: rest =>
    packByte b7 b6 b5 b4 b3 b2 b1 b0 :: packedBytes rest
  | _ => []

end Sys2Proof.Machine
end

