-- ==== Sys2Proof/Machine/Pseudocode.lean ====
section
/-! DEFINITION. Rule R111 of 40_cycle.md written out over a function from cell numbers to Booleans and natural numbers, line by line as the spec writes it and with none of the model's own operations. Claims compare the machine's step with it; the machine does not use it. -/

namespace Sys2Proof.Machine

/-- The state R111 speaks of: the cells `x`, AWAITING, STATUS, and the calls made to the two devices. -/
structure RuleState where
  x : Nat → Bool
  awaiting : Bool
  status : Status
  calls : List Event

/-- `word(a)`, the sum of R52. -/
def ruleWord (x : Nat → Bool) (a : Nat) : Nat :=
  ((List.range 16).map fun k => (x (a + k)).toNat <<< (15 - k)).sum

/-- `word(a) <- v`, the loop of R53. -/
def ruleSetWord (x : Nat → Bool) (a v : Nat) : Nat → Bool :=
  fun c => if a ≤ c ∧ c ≤ a + 15 then v.testBit (15 - (c - a)) else x c

/-- `x[i] <- b`. -/
def ruleSetBit (x : Nat → Bool) (i : Nat) (b : Bool) : Nat → Bool :=
  fun c => if c = i then b else x c

/-- `EffIdx(A)` as R122 writes it. -/
def ruleEffIdx (x : Nat → Bool) (paging : Bool) (a : Nat) : Nat :=
  if paging then (((ruleWord x 128 &&& 0x7FFF) >>> 6) <<< 8) ||| a else a

/-- The `case OP of` lines of R111, where no fault is raised. -/
def ruleExec (rom : Nat → Nat) (idx op a b : Nat) (x : Nat → Bool) : Nat → Bool :=
  if op = 0 then ruleSetWord x b (ruleWord x a)
  else if op = 1 then ruleSetWord x b (rom idx)
  else if op = 2 then ruleSetBit x b (!(x a && x b))
  else ruleSetBit x b (x a ^^ x b)

/-- The output line of R111. -/
def ruleOutput (s : RuleState) : RuleState :=
  if s.x 19 then { s with x := ruleSetBit s.x 19 false, calls := s.calls ++ [.output (s.x 18)] } else s

/-- The input line of R111. -/
def ruleInput (s : RuleState) : RuleState :=
  if !s.x 17 && !s.awaiting then { s with awaiting := true, calls := s.calls ++ [.inputRequest] } else s

/-- `step()` of R111, with the state it leaves and the result it returns. -/
def ruleStep (rom : Nat → Nat) (romLen : Nat) (paging : Bool) (s : RuleState) : RuleState × StepResult :=
  match s.status with
  | .halted => (s, .halted)
  | .faulted c => (s, .fault c)
  | .running =>
    let oldPc := ruleWord s.x 0
    let s := { s with x := ruleSetWord s.x 0 ((oldPc + 1) % 65536) }
    if romLen ≤ oldPc then
      let c := Fault.fetchOutOfRange (BitVec.ofNat 16 oldPc)
      ({ s with status := .faulted c }, .fault c)
    else
      let w := rom oldPc
      let a := w >>> 9
      let b := (w >>> 2) &&& 0x7F
      let op := w &&& 0x3
      let idx := ruleEffIdx s.x paging a
      if op = 1 ∧ romLen ≤ idx then
        ({ s with status := .faulted (.loadOutOfRange idx) }, .fault (.loadOutOfRange idx))
      else
        let s := { s with x := ruleExec rom idx op a b s.x }
        if ruleWord s.x 0 = oldPc then ({ s with status := .halted }, .halted)
        else (ruleInput (ruleOutput s), .continued)

/-- The model's state as R111 sees it. -/
def State.ruleState (s : State) : RuleState :=
  { x := s.cell, awaiting := s.awaiting, status := s.status, calls := s.events }

/-- The model's ROM as R111 sees it: `ROM[i]` below `ROM_LEN`. -/
def Memory.ruleRom (m : Memory) (i : Nat) : Nat := ((m.read i).getD 0#16).toNat

end Sys2Proof.Machine
end

