-- ==== Sys2Proof/Safety.lean ====
section
/-! DEFINITION. The terms claims use: what the host observes (60_exceptions.md R186), how a run ends (R190), the legality of the interface trace (10_state.md R37, 60_exceptions.md R180), and the invariant of the machine. -/

namespace Sys2Proof.Machine

/-- What the host may read between steps, without side effect (R186). -/
structure HostView where
  cells : Cells
  awaiting : Bool
  status : Status
  deriving DecidableEq, Repr

/-- The host's observation of a state (R186). -/
def State.hostView (s : State) : HostView := { cells := s.regs, awaiting := s.awaiting, status := s.status }

/-- The bits of the output events in a trace, in order. -/
def outputBits (es : List Event) : List Bool :=
  match es with
  | [] => []
  | .output v :: rest => v :: outputBits rest
  | .inputRequest :: rest => outputBits rest
  | .inputCompletion _ :: rest => outputBits rest

/-- How many input requests a trace holds. -/
def requestCount (es : List Event) : Nat :=
  match es with
  | [] => 0
  | .inputRequest :: rest => requestCount rest + 1
  | .output _ :: rest => requestCount rest
  | .inputCompletion _ :: rest => requestCount rest

/-- The observable result of a normal end (R190): the register file at the halt and the bits sent to the output device, in
order; none where the run has not ended normally. -/
def State.normalEnd (s : State) : Option (Cells × List Bool) :=
  match s.status with
  | .halted => some (s.regs, outputBits s.events)
  | .running => none
  | .faulted _ => none

/-- An error end (R190), with its cause. -/
def State.errorEnd (s : State) : Option Fault :=
  match s.status with
  | .faulted c => some c
  | .running => none
  | .halted => none

/-- The states of the input channel (R180). -/
inductive ChannelState where
  | idle
  | consumed
  | awaitingRead
  deriving DecidableEq, Repr

/-- The table of R180, from AWAITING and IN_READY to the channel's state. -/
def channelOf (awaiting inReady : Bool) : ChannelState :=
  match awaiting, inReady with
  | true, _ => .awaitingRead
  | false, true => .idle
  | false, false => .consumed

/-- The input channel's state (R180). -/
def State.channel (s : State) : ChannelState := channelOf s.awaiting s.inReady

/-- Whether a request is outstanding after one more event; none where the event breaks the handshake: a second request while
one is outstanding (R37), or a completion while none is (R178). -/
def Event.after (outstanding : Bool) (e : Event) : Option Bool :=
  match e, outstanding with
  | .inputRequest, false => some true
  | .inputRequest, true => none
  | .inputCompletion _, true => some false
  | .inputCompletion _, false => none
  | .output _, o => some o

/-- Whether a request is outstanding after a trace that begins with none outstanding; none where the trace breaks the
handshake. -/
def outstandingAfter (outstanding : Bool) (es : List Event) : Option Bool :=
  match es with
  | [] => some outstanding
  | e :: rest => (Event.after outstanding e).bind fun o => outstandingAfter o rest

/-- AWAITING is true exactly when a request is outstanding, and there was never more than one (R36, R37). -/
def State.handshakeOk (s : State) : Prop := outstandingAfter false s.events = some s.awaiting

/-- Between steps a running core has nothing left to send (R207). -/
def State.outputSent (s : State) : Prop := s.status = .running → s.outReady = false

/-- Between steps a running core's input channel is never `Consumed` (R180). -/
def State.inputAsked (s : State) : Prop := s.status = .running → s.channel ≠ .consumed

/-- `t` is `s` but for the register-file cells that `written` names: every other cell reads as before, and AWAITING, STATUS,
the configuration, the input device and the interface events are unchanged. -/
structure State.SameBut (s t : State) (written : Nat → Prop) : Prop where
  cells : ∀ c, ¬ written c → t.cell c = s.cell c
  awaiting : t.awaiting = s.awaiting
  status : t.status = s.status
  rom : t.rom = s.rom
  paging : t.paging = s.paging
  inputDevice : t.inputDevice = s.inputDevice
  events : t.events = s.events

/-- The cells of the word at `a` (R52). -/
def inWord (a c : Nat) : Prop := a ≤ c ∧ c < a + 16

/-- The state that phase 3 of a step leaves (R103): the instruction fetched at the PC, executed on the state whose PC is
already incremented; none where the fetch has no ROM word. -/
def State.phase3 (s : State) : Option State :=
  match s.fetch with
  | none => none
  | some w =>
    match exec (decode w) s.advancePc with
    | .next u => some u
    | .fault _ => none
    | .refused _ => none

/-- The destination field of an instruction: a word address for `copy` and `load`, a bit address for `nand` and `xor` (R82). -/
def destination (i : Instr) : Addr :=
  match i with
  | .copy _ b => b
  | .load _ b => b
  | .nand _ b => b
  | .xor _ b => b

/-- The meanings of a list of instructions one after the other, without the rest of their steps. -/
def execAll (is : List Instr) (s : State) : Host.Outcome State Fault Refusal :=
  match is with
  | [] => .next s
  | i :: rest =>
    match exec i s with
    | .next t => execAll rest t
    | .fault c => .fault c
    | .refused r => .refused r

/-- Weak fairness of the input device along the run from `s` (R179, R213, D18): a request that is outstanding at any point of
the run is completed after finitely many more steps, whether or not the run ever ends. -/
def State.weaklyFair (s : State) : Prop :=
  ∀ (n : Nat) (t : State), Host.Core.run Sys2Proof.core n s = .next t → t.awaiting = true →
    ∃ (k : Nat) (u : State), Host.Core.run Sys2Proof.core k t = .next u ∧ u.awaiting = false

/-- The invariant of the machine between steps. -/
structure State.Inv (s : State) : Prop where
  romWf : s.rom.wf = true
  handshake : s.handshakeOk
  sent : s.outputSent
  asked : s.inputAsked

end Sys2Proof.Machine
end

