-- ==== Sys2Proof/Certificates/Slice0/Obligations.lean ====
section
/-! DEFINITION. The statements about the model, each a formalisation of rules of spec/, for the provers to settle. -/

open Sys2Proof Sys2Proof.Machine

/-! ### Encoding (30_encoding.md) -/

/-- Decoding an encoded instruction gives it back, with every operand (R80, R82). -/
def Obligations.DecodeOfEncodeIsTheInstruction : Prop :=
  ∀ i : Instr, i.wellFormed = true → decode (encode i) = i

/-- R80's three fields and its opcode numbers, in arithmetic: bits 15 to 9 are `w >> 9`, bits 8 to 2 are `(w >> 2) & 0x7F`, bits
1 to 0 are `w & 0x3`, and an instruction's word is its fields put there (R83). -/
def Obligations.EncodingIsTheFieldFormula : Prop :=
  (∀ a b : Addr,
    (encode (.copy a b)).toNat = (a.toNat <<< 9) ||| (b.toNat <<< 2) ||| 0 ∧
    (encode (.load a b)).toNat = (a.toNat <<< 9) ||| (b.toNat <<< 2) ||| 1 ∧
    (encode (.nand a b)).toNat = (a.toNat <<< 9) ||| (b.toNat <<< 2) ||| 2 ∧
    (encode (.xor a b)).toNat = (a.toNat <<< 9) ||| (b.toNat <<< 2) ||| 3) ∧
  ∀ w : Word,
    (fieldA w).toNat = w.toNat >>> 9 ∧
    (fieldB w).toNat = (w.toNat >>> 2) &&& 0x7F ∧
    (fieldOp w).toNat = w.toNat &&& 0x3

/-- R87, which the spec marks as its own inference from R80, R82 and R85: each of the 65536 words is exactly one instruction,
and no word traps or is refused. -/
def Obligations.EveryWordIsExactlyOneInstruction : Prop :=
  ∀ w : Word,
    (decode w).wellFormed = true ∧ encode (decode w) = w ∧ (∀ i, encode i = w → i = decode w) ∧
    ∀ s, ∃ t : State, exec (decode w) s = .next t

/-- Instruction words written out in the spec decode to the instructions it names (R120, R122, R140, R141, R114). -/
def Obligations.WordsOfTheSpecDecode : Prop :=
  decode 0x28A0#16 = .copy 20 40 ∧ decode 0x0E51#16 = .load 7 20 ∧ decode 0x264E#16 = .nand 19 19 ∧
  decode 0x285B#16 = .xor 20 22 ∧ decode 0x1E3F#16 = .xor 15 15 ∧ decode 0xFE51#16 = .load 127 20

/-! ### The register file (20_memory.md) -/

/-- R52: a word read is the sum of its 16 cells, cell `a` most significant; at 128 its least significant bit is the virtual
cell, false. -/
def Obligations.WordReadIsTheBigEndianSum : Prop :=
  ∀ (s : State) (a : Nat), a ≤ 128 →
    (s.readWord a).toNat = ((List.range 16).map fun k => (s.cell (a + k)).toNat <<< (15 - k)).sum ∧
    (s.readWord 128).getLsbD 0 = false

/-- R53: a word write puts bit `15 - k` of `v` into cell `a + k`, changes nothing else, and never reaches cell 143 (the last
by the spec's own inference from R54). -/
def Obligations.WordWriteSetsItsSixteenCells : Prop :=
  ∀ (s : State) (a : Nat) (v : Word), a ≤ 127 →
    (∀ k, k < 16 → (s.writeWord a v).cell (a + k) = v.getLsbD (15 - k)) ∧
    s.SameBut (s.writeWord a v) (inWord a) ∧ ¬ inWord a 143

/-- R56: after `word(a) <- v` a bit read gives the bit, and a word read gives `v` for as long as the word's cells keep their
values. -/
def Obligations.WordWrittenIsReadBack : Prop :=
  ∀ (s : State) (a : Nat) (v : Word), a ≤ 127 →
    (∀ k, k ≤ 15 → (s.writeWord a v).cell (a + k) = v.getLsbD (15 - k)) ∧
    (s.writeWord a v).readWord a = v ∧
    ∀ t : State, (∀ c, inWord a c → t.cell c = (s.writeWord a v).cell c) → t.readWord a = v

/-- The virtual cell seen through a word write: `v` written at 127 reads at 128 as `v` shifted left by one, and sets the page
to bits 13 to 5 of `v` (95_test_vectors.md S2, W8, P6). -/
def Obligations.WordAt127SetsThePage : Prop :=
  ∀ (s : State) (v : Word),
    (s.writeWord 127 v).readWord 128 = v <<< 1 ∧ (s.writeWord 127 v).pageNumber = (v.toNat >>> 5) % 512

/-! ### The word instructions (41_word_ops.md) -/

/-- `copy A, B` completes in every state: the word at `B` becomes the old word at `A`, whatever the overlap, and nothing else
changes; with `A = B` no cell changes. -/
def Obligations.CopyMovesTheWholeWord : Prop :=
  ∀ (a b : Addr) (s : State), ∃ t : State, exec (.copy a b) s = .next t ∧
    t.readWord b.toNat = s.readWord a.toNat ∧
    (∀ k, k < 16 → t.cell (b.toNat + k) = s.cell (a.toNat + k)) ∧
    s.SameBut t (inWord b.toNat) ∧
    (a = b → ∀ c, t.cell c = s.cell c)

/-- `load A, B` completes wherever its effective index has a ROM word: the word at `B` becomes that word, and nothing else
changes. -/
def Obligations.LoadWritesTheRomWord : Prop :=
  ∀ (a b : Addr) (s : State) (v : Word), s.rom.read (s.effIdx a) = some v →
    ∃ t : State, exec (.load a b) s = .next t ∧
      t.readWord b.toNat = v ∧
      (∀ k, k < 16 → t.cell (b.toNat + k) = v.getLsbD (15 - k)) ∧
      s.SameBut t (inWord b.toNat)

/-- R60 and R61: the effective index is `a` without paging, and `(page << 8) | a` with it, the page being the nine cells from
129 on, which is what the formula over `word(128)` gives (which cells, and the shift, are the spec's own decision D6, log
entry 10). -/
def Obligations.EffectiveIndexFollowsPaging : Prop :=
  ∀ (s : State) (a : Addr),
    (s.paging = false → s.effIdx a = a.toNat ∧ s.effIdx a ≤ 127) ∧
    (s.paging = true →
      s.effIdx a = (((((s.readWord 128).toNat &&& 0x7FFF) >>> 6) <<< 8) ||| a.toNat) ∧
      s.effIdx a =
        ((((List.range Config.pageWidth).map fun j =>
            (s.cell (Config.pageFirstCell + j)).toNat <<< (Config.pageWidth - 1 - j)).sum
          <<< Config.pageShift) ||| a.toNat))

/-- The range of the paged index, and the cells it depends on (R62, from the spec's own decisions D6 and D7, log entry 10): the
page is at most 511, the index has 17 bits without truncation, bit 7 is always 0, cells 129 to 137 count and no others; the
last index is reached. -/
def Obligations.PagedIndexHasSeventeenBits : Prop :=
  ∀ (s : State) (a : Addr), s.paging = true →
    s.pageNumber ≤ 511 ∧ s.effIdx a ≤ 0x1FF7F ∧ (s.effIdx a).testBit 7 = false ∧
    (∀ t : State, t.paging = true → (∀ c, 129 ≤ c → c ≤ 137 → t.cell c = s.cell c) → t.effIdx a = s.effIdx a) ∧
    ((∀ c, 129 ≤ c → c ≤ 137 → s.cell c = true) → s.effIdx 127 = 0x1FF7F)

/-- R123: with paging a `load 5, b` reads ROM index `(page << 8) | 5`, which for page 1 is 261 (the page cells are the spec's
own decision D6, log entry 10); without paging it reads 5. -/
def Obligations.PagedLoadOfOperandFive : Prop :=
  (∀ (s : State) (b : Addr) (v : Word), s.paging = true → s.rom.read ((s.pageNumber <<< 8) ||| 5) = some v →
    ∃ t : State, exec (.load 5 b) s = .next t ∧ t.readWord b.toNat = v) ∧
  (∀ (s : State) (b : Addr) (v5 v261 : Word), s.rom.read 5 = some v5 → s.rom.read 261 = some v261 →
    s.cell 137 = true → (∀ c, 129 ≤ c → c ≤ 136 → s.cell c = false) →
    ∃ t : State, exec (.load 5 b) s = .next t ∧ t.readWord b.toNat = if s.paging then v261 else v5)

/-! ### The bit instructions (42_bit_ops.md) -/

/-- `nand A, B` completes in every state: `x[B] <- NOT (x[A] AND x[B])`, and nothing else changes. -/
def Obligations.NandWritesItsDestinationCell : Prop :=
  ∀ (a b : Addr) (s : State), ∃ t : State, exec (.nand a b) s = .next t ∧
    t.cell b.toNat = (!(s.cell a.toNat && s.cell b.toNat)) ∧
    s.SameBut t (fun c => c = b.toNat)

/-- `xor A, B` completes in every state: `x[B] <- x[A] XOR x[B]`, and nothing else changes. -/
def Obligations.XorWritesItsDestinationCell : Prop :=
  ∀ (a b : Addr) (s : State), ∃ t : State, exec (.xor a b) s = .next t ∧
    t.cell b.toNat = (s.cell a.toNat ^^ s.cell b.toNat) ∧
    s.SameBut t (fun c => c = b.toNat)

/-- R142: `nand` and `xor` write exactly cell `B`, never cell `A` unless it is `B`, and what they write depends on cells `A`
and `B` alone. -/
def Obligations.BitInstructionsTouchOnlyTheirCells : Prop :=
  ∀ (a b : Addr) (i : Instr), i = .nand a b ∨ i = .xor a b → ∀ s : State,
    ∃ t : State, exec i s = .next t ∧ s.SameBut t (fun c => c = b.toNat) ∧ (a ≠ b → t.cell a.toNat = s.cell a.toNat) ∧
      ∀ s' t' : State, s'.cell a.toNat = s.cell a.toNat → s'.cell b.toNat = s.cell b.toNat →
        exec i s' = .next t' → t'.cell b.toNat = t.cell b.toNat

/-- R145, which the spec marks as its own inference: a bit instruction into cell `15 - k` changes bit `k` of `oldPc + 1`; `xor 15, 15` halts at an even index and changes
nothing at an odd one; `xor c, 15` at an odd index skips the next instruction iff `x[c]`, and at an even index halts iff
`x[c]`. -/
def Obligations.BitInstructionsIntoThePc : Prop :=
  (∀ (s : State) (a b : Addr) (k : Nat), k ≤ 15 → b.toNat = 15 - k →
    (∃ t : State, exec (.nand a b) s.advancePc = .next t ∧ ∀ j, j < 16 →
      t.pc.getLsbD j =
        if j = k then !(s.advancePc.cell a.toNat && (s.pc + 1#16).getLsbD k) else (s.pc + 1#16).getLsbD j) ∧
    (∃ t : State, exec (.xor a b) s.advancePc = .next t ∧ ∀ j, j < 16 →
      t.pc.getLsbD j =
        if j = k then s.advancePc.cell a.toNat ^^ (s.pc + 1#16).getLsbD k else (s.pc + 1#16).getLsbD j)) ∧
  (∀ s : State, s.status = .running → s.fetch = some (encode (.xor 15 15)) →
    ∃ t : State, step s = .next t ∧
      if s.pc.toNat % 2 = 0 then t.status = .halted ∧ t.pc = s.pc
      else t.status = .running ∧ t.pc = s.pc + 1#16) ∧
  (∀ (s : State) (c : Addr), s.status = .running → 16 ≤ c.toNat → s.fetch = some (encode (.xor c 15)) →
    ∃ t : State, step s = .next t ∧
      if s.pc.toNat % 2 = 1 then t.status = .running ∧ t.pc = s.pc + 1#16 + if s.cell c.toNat then 1#16 else 0#16
      else if s.cell c.toNat then t.status = .halted ∧ t.pc = s.pc
      else t.status = .running ∧ t.pc = s.pc + 1#16)

/-! ### The cycle (40_cycle.md) -/

/-- A step of a running core fetches at the PC, executes the decoded instruction on the state whose PC is incremented, and
then halts, services or stops at the fault, by what the instruction left (R103, R105, R107); the input device has its turn
after it. -/
def Obligations.StepRunsTheDecodedInstruction : Prop :=
  ∀ (s : State) (w : Word), s.status = .running → s.rom.read s.pc.toNat = some w →
    (decode w).wellFormed = true ∧
    ∃ u, exec (decode w) (s.setPc (s.pc + 1#16)) = .next u ∧
      ((∃ c, u.status = .faulted c) → step s = .next u.deviceTurn) ∧
      (u.status = .running → u.pc = s.pc → step s = .next u.halt.deviceTurn) ∧
      (u.status = .running → u.pc ≠ s.pc → step s = .next u.service.deviceTurn)

/-- R111: the step of the core is the spec's pseudocode, for every state with a ROM: same cells, AWAITING, STATUS, device calls
and result. Its faults, its wrap and the order of its services are the spec's own decisions D3, D4, D5, D8, D13 and D15 (log
entries 9, 11, 12 and 16). -/
def Obligations.CoreStepRefinesTheSpecsStep : Prop :=
  ∀ s : State, s.rom.len ≠ 0 → ∃ t : State, coreStep s = .next t ∧
    ruleStep s.rom.ruleRom s.rom.len s.paging s.ruleState = (t.ruleState, t.result) ∧
    t.rom = s.rom ∧ t.paging = s.paging ∧ t.inputDevice = s.inputDevice

/-- R101: phase 1 leaves `(oldPc + 1) mod 65536` in the PC word, the reduction applying only at 0xFFFF (the spec's own decision
D3, log entry 11), and changes nothing else. -/
def Obligations.PhaseOneIncrementsThePc : Prop :=
  ∀ s : State,
    s.advancePc.pc.toNat = (s.pc.toNat + 1) % 65536 ∧
    (s.pc ≠ 0xFFFF#16 → s.advancePc.pc.toNat = s.pc.toNat + 1) ∧
    (s.pc = 0xFFFF#16 → s.advancePc.pc = 0#16) ∧
    s.SameBut s.advancePc (fun c => c < 16)

/-- R104, which the spec marks as its own inference from R101 and R103: in phase 3 the PC cells hold `oldPc + 1`; `copy 0, b` stores it, and `copy 0, 0` neither changes it nor halts. -/
def Obligations.InstructionsReadTheIncrementedPc : Prop :=
  (∀ (s : State) (c : Nat), c < 16 → s.advancePc.cell c = (s.pc + 1#16).getLsbD (15 - c)) ∧
  (∀ (s : State) (b : Addr), ∃ t : State, exec (.copy 0 b) s.advancePc = .next t ∧ t.readWord b.toNat = s.pc + 1#16) ∧
  (∀ s : State, s.status = .running → s.fetch = some (encode (.copy 0 0)) →
    ∃ t : State, step s = .next t ∧ t.pc = s.pc + 1#16 ∧ t.status = .running)

/-- R105: a step whose instruction leaves the PC equal to `oldPc` halts, with the instruction's writes in place and no service
phase; any other step that does not fault goes on. -/
def Obligations.StepHaltsWhenThePcIsBack : Prop :=
  ∀ s u : State, s.status = .running → s.phase3 = some u → u.status = .running →
    ∃ t : State, step s = .next t.deviceTurn ∧
      (u.pc = s.pc → t.status = .halted ∧ (∀ c, t.cell c = u.cell c) ∧ t.events = s.events ∧ t.awaiting = s.awaiting) ∧
      (u.pc ≠ s.pc → t.status = .running)

/-- A step whose instruction writes no PC cell advances the PC by exactly 1, modulo 65536, and never halts (R106, R108). -/
def Obligations.StepsOffThePcAdvanceByOne : Prop :=
  ∀ (s : State) (w : Word), s.status = .running → s.fetch = some w → 16 ≤ (destination (decode w)).toNat →
    (∀ a b, decode w = .load a b → s.effIdx a < s.rom.len) →
    ∃ t : State, step s = .next t ∧ t.status = .running ∧ t.pc = s.pc + 1#16

/-- `copy a, 0` jumps to the word at `a` and `load k, 0` to the ROM constant; either halts where the target is its own index
(R109, R121). -/
def Obligations.JumpsByCopyAndLoad : Prop :=
  (∀ (s : State) (a : Addr), s.status = .running → 16 ≤ a.toNat → s.fetch = some (encode (.copy a 0)) →
    ∃ t : State, step s = .next t ∧ t.pc = s.readWord a.toNat ∧
      t.status = if s.readWord a.toNat = s.pc then .halted else .running) ∧
  (∀ (s : State) (k : Addr) (v : Word), s.status = .running → s.fetch = some (encode (.load k 0)) →
    s.rom.read (s.effIdx k) = some v →
    ∃ t : State, step s = .next t ∧ t.pc = v ∧ t.status = if v = s.pc then .halted else .running)

/-- A word rewritten with its own value has no effect but the PC's advance, when no output, request or completion is due
(R88). -/
def Obligations.CopyOntoItselfOnlyAdvancesThePc : Prop :=
  ∀ (s : State) (a : Addr), s.status = .running → 16 ≤ a.toNat → s.fetch = some (encode (.copy a a)) →
    s.outReady = false → (s.awaiting = true ∨ s.inReady = true) →
    (s.awaiting = false ∨ ∀ v, deviceDue s.inputDevice ≠ some v) →
    ∃ t : State, step s = .next t ∧ t.pc = s.pc + 1#16 ∧ (∀ c, 16 ≤ c → t.cell c = s.cell c) ∧
      t.awaiting = s.awaiting ∧ t.status = s.status ∧ t.events = s.events ∧ t.rom = s.rom ∧ t.paging = s.paging

/-- Every step answers a next state, whatever the core waits for; only a state without a ROM, which is no core, is refused
(R160, R166, R167, R181; the refusal of such a state is the model's choice, log entry 2). -/
def Obligations.EveryStepAnswers : Prop :=
  ∀ s : State,
    (s.rom.len ≠ 0 ∨ s.status ≠ .running → ∃ t : State, step s = .next t) ∧
    (s.rom.len = 0 → s.status = .running → step s = .refused (.noCore .invalidRom))

/-! ### Halt and faults (60_exceptions.md) -/

/-- R163, the spec's own decision D4 (log entry 9): a fetch at or beyond `ROM_LEN` faults, recording the index; the PC is incremented, nothing executes, no service runs.
No instruction raises this fault. -/
def Obligations.FetchBeyondTheRomFaults : Prop :=
  (∀ s : State, s.status = .running → s.rom.len ≠ 0 → s.rom.len ≤ s.pc.toNat →
    ∃ t : State, step s = .next t.deviceTurn ∧ t.status = .faulted (.fetchOutOfRange s.pc) ∧ t.pc = s.pc + 1#16 ∧
      (∀ c, 16 ≤ c → t.cell c = s.cell c) ∧ t.awaiting = s.awaiting ∧ t.events = s.events ∧ t.rom = s.rom ∧
      t.paging = s.paging ∧ t.inputDevice = s.inputDevice) ∧
  (∀ (i : Instr) (s t : State) (p : Word), exec i s = .next t → t.status = .faulted (.fetchOutOfRange p) →
    s.status = .faulted (.fetchOutOfRange p))

/-- R164, the spec's own decision D5 (log entry 9): a `load` whose effective index is at or beyond `ROM_LEN` faults, recording the index; the PC holds `oldPc + 1`, the
destination is not written, and neither the halt check nor the service phase runs. Only `load` raises this fault. -/
def Obligations.LoadBeyondTheRomFaults : Prop :=
  (∀ (s : State) (w : Word) (a b : Addr), s.status = .running → s.fetch = some w → decode w = .load a b →
    s.rom.len ≤ s.effIdx a →
    ∃ t : State, step s = .next t.deviceTurn ∧ t.status = .faulted (.loadOutOfRange (s.effIdx a)) ∧ t.pc = s.pc + 1#16 ∧
      (∀ c, 16 ≤ c → t.cell c = s.cell c) ∧ t.awaiting = s.awaiting ∧ t.events = s.events ∧ t.rom = s.rom ∧
      t.paging = s.paging ∧ t.inputDevice = s.inputDevice) ∧
  (∀ (s t : State) (i : Nat), s.status = .running → step s = .next t → t.status = .faulted (.loadOutOfRange i) →
    ∃ w a b, s.fetch = some w ∧ decode w = .load a b ∧ i = s.effIdx a ∧ s.rom.len ≤ i)

/-- R162, R165: from a halted or faulted core every number of steps leaves STATUS and every cell but IN_BIT and IN_READY as they
are, sends nothing and requests nothing, and with no request outstanding changes no cell at all; an outstanding request may
still complete, with the effect of R178 (the spec's own decisions D10 and D15, log entries 9 and 13). -/
def Obligations.TerminalStatesAreNeverLeft : Prop :=
  (∀ (s : State) (n : Nat), s.status ≠ .running →
    ∃ t : State, Host.Core.run Sys2Proof.core n s = .next t ∧ t.status = s.status ∧ t.result = s.result ∧
      (∀ c, c ≠ 16 → c ≠ 17 → t.cell c = s.cell c) ∧
      outputBits t.events = outputBits s.events ∧ requestCount t.events = requestCount s.events ∧
      (s.awaiting = false → t.regs = s.regs ∧ t.awaiting = false ∧ t.events = s.events)) ∧
  (∀ (s : State) (v : Bool), s.status ≠ .running → s.awaiting = true → deviceDue s.inputDevice = some v →
    ∃ t : State, step s = .next t ∧ t.inBit = v ∧ t.inReady = true ∧ t.awaiting = false)

/-- R206: a step that halts sends nothing and requests nothing, then or ever after; OUT_READY stays as its instruction left
it. -/
def Obligations.HaltingStepNeverSends : Prop :=
  ∀ (s u t : State) (n : Nat), s.status = .running → s.phase3 = some u → step s = .next t → t.status = .halted →
    ∃ t' : State, Host.Core.run Sys2Proof.core n t = .next t' ∧ t'.status = .halted ∧
      t'.cell 19 = u.cell 19 ∧ outputBits t'.events = outputBits s.events ∧
      requestCount t'.events = requestCount s.events

/-! ### The I/O handshake (60_exceptions.md) -/

/-- R175: a step that does not halt or fault sends OUT_BIT exactly if OUT_READY is set when its instruction is done, and clears
OUT_READY; OUT_BIT is not changed. -/
def Obligations.OutputServiceSendsOutBit : Prop :=
  ∀ s u : State, s.status = .running → s.phase3 = some u → u.status = .running → u.pc ≠ s.pc →
    ∃ t : State, step s = .next t ∧
      outputBits t.events = outputBits s.events ++ (if u.cell 19 then [u.cell 18] else []) ∧
      t.cell 19 = false ∧ t.cell 18 = u.cell 18

/-- R177: a step that does not halt or fault issues exactly one request, after its output, if IN_READY is clear and none is
outstanding when its instruction is done, and none otherwise. That the output comes before the request of the same step is the
spec's own decision D8 (R107, log entry 12). -/
def Obligations.InputServiceIssuesOneRequest : Prop :=
  ∀ s u : State, s.status = .running → s.phase3 = some u → u.status = .running → u.pc ≠ s.pc →
    ∃ t : State, step s = .next t.deviceTurn ∧
      t.awaiting = (s.awaiting || !u.cell 17) ∧
      t.events = s.events ++ (if u.cell 19 then [Event.output (u.cell 18)] else []) ++
        (if u.cell 17 = false ∧ s.awaiting = false then [Event.inputRequest] else [])

/-- R178: a completion with `v` sets IN_BIT to `v`, sets IN_READY and clears AWAITING, whatever they held, and changes nothing
else; it lands only while AWAITING, and otherwise nothing but the device itself can differ. (A completion is the device's turn
with a value due, log entry 5.) -/
def Obligations.InputCompletionDeliversTheBit : Prop :=
  ∀ (s : State) (v : Bool), deviceDue s.inputDevice = some v →
    (s.awaiting = true →
      s.deviceTurn.cell 16 = v ∧ s.deviceTurn.cell 17 = true ∧ s.deviceTurn.awaiting = false ∧
      (∀ c, c ≠ 16 → c ≠ 17 → s.deviceTurn.cell c = s.cell c) ∧
      s.deviceTurn.events = s.events ++ [.inputCompletion v] ∧ s.deviceTurn.status = s.status ∧
      s.deviceTurn.rom = s.rom ∧ s.deviceTurn.paging = s.paging) ∧
    (s.awaiting = false → ∀ q, { s.deviceTurn with inputDevice := q } = { s with inputDevice := q })

/-- Every request is completed (R179's weak fairness, R208): a request outstanding after a step is answered within as many
steps as the device still lets pass and one more, with one bit and with no further request before it, whatever the program
does, even after its end. (That no device withholds a completion for ever is the spec's own decision D18, and the device's form
the model's, log entry 5.) -/
def Obligations.EveryRequestIsCompleted : Prop :=
  ∀ s : State, s.awaiting = true → s.rom.len ≠ 0 ∨ s.status ≠ .running →
    ∃ (n : Nat) (v : Bool) (t : State) (es : List Event),
      n ≤ s.inputDevice.schedule.length + s.inputDevice.wait + 1 ∧ Host.Core.run Sys2Proof.core n s = .next t ∧
      t.events = s.events ++ es ++ [.inputCompletion v] ∧ requestCount es = 0 ∧
      t.awaiting = false ∧ t.inReady = true ∧ t.inBit = v

/-- Along every run of a core, ending or not, every outstanding request is completed after finitely many steps (R179; the
spec's own decision D18, log entry 5). -/
def Obligations.EveryRunIsWeaklyFair : Prop :=
  ∀ s : State, s.rom.len ≠ 0 ∨ s.status ≠ .running → s.weaklyFair

/-- R182: with a device that returns true synchronously IN_READY and IN_BIT are set after construction; a step that clears
IN_READY then causes exactly one new request, which that device completes in the same step. -/
def Obligations.SynchronousInputDevice : Prop :=
  (∀ (c : Config.Construction) (d : Config.InputDevice) (o : Config.OutputDevice),
    romWellFormed c.rom = true → c.input = some d → deviceDue d = some true → c.output = some o →
    ∃ s, construct c = .next s ∧ s.inReady = true ∧ s.inBit = true ∧ s.awaiting = false ∧ requestCount s.events = 1) ∧
  (∀ s u : State, s.status = .running → s.awaiting = false → s.phase3 = some u → u.status = .running →
    u.pc ≠ s.pc → u.inReady = false →
    ∃ t : State, step s = .next t ∧ requestCount t.events = requestCount s.events + 1 ∧
      (deviceDue s.inputDevice = some true → t.inReady = true ∧ t.inBit = true ∧ t.awaiting = false))

/-- The table of the input channel's states (R180): a program's write to cell 17 moves between `Idle` and `Consumed`, the input
service leaves `Consumed` for `AwaitingRead`, and a completion leads to `Idle`. -/
def Obligations.InputChannelFollowsItsTable : Prop :=
  ∀ (s : State) (b v : Bool),
    (s.setCell 17 b).channel =
      (if s.awaiting then .awaitingRead else if b then .idle else .consumed) ∧
    s.service.channel = (if s.channel = .consumed then .awaitingRead else s.channel) ∧
    (s.service.channel = .awaitingRead → s.channel ≠ .awaitingRead → s.inReady = false ∧ s.awaiting = false) ∧
    (s.complete v).channel = .idle

/-- `nand 19, 19` with OUT_READY clear sends OUT_BIT in the service phase of its own step, and OUT_READY is clear when the next
step begins (R140, R207). -/
def Obligations.SettingOutReadySendsAtOnce : Prop :=
  ∀ s : State, s.status = .running → s.fetch = some (encode (.nand 19 19)) → s.outReady = false →
    ∃ t : State, step s = .next t ∧ t.status = .running ∧ t.pc = s.pc + 1#16 ∧
      outputBits t.events = outputBits s.events ++ [s.outBit] ∧ t.outReady = false ∧ t.outBit = s.outBit

/-- A `copy` that writes both cells 18 and 19, and no PC cell, sends the bit it wrote to 18 if it wrote true to 19, and
otherwise sends nothing (R207, R210). -/
def Obligations.OneCopyOverBothOutputCells : Prop :=
  ∀ (s : State) (a b : Addr), s.status = .running → 16 ≤ a.toNat → 16 ≤ b.toNat → b.toNat ≤ 18 →
    s.fetch = some (encode (.copy a b)) →
    ∃ t : State, step s = .next t ∧ t.status = .running ∧
      outputBits t.events = outputBits s.events ++
        (if (s.readWord a.toNat).getMsbD (19 - b.toNat) then [(s.readWord a.toNat).getMsbD (18 - b.toNat)] else []) ∧
      t.outReady = false

/-- A step adds to the interface events, with at most one output and at most one request (R176, R177). -/
def Obligations.StepMakesAtMostOneCallOfEachKind : Prop :=
  ∀ s t : State, step s = .next t →
    ∃ es, t.events = s.events ++ es ∧ (outputBits es).length ≤ 1 ∧ requestCount es ≤ 1

/-- R112, the spec's own decision D9 (log entry 12): nothing interleaves with the phases of a step; what the input device will do cannot change what the core does before
the step boundary. -/
def Obligations.CoreStepIgnoresTheInputDevice : Prop :=
  ∀ (s t : State) (q : Config.InputDevice), coreStep s = .next t →
    coreStep { s with inputDevice := q } = .next { t with inputDevice := q } ∧
    step { s with inputDevice := q } = .next ({ t with inputDevice := q } : State).deviceTurn

/-! ### Reset and construction (70_reset_and_hazards.md) -/

/-- R41: the state after construction. IN_BIT, IN_READY and AWAITING depend on whether the construction-time read completed;
every other cell is false (the spec's own decision D1, log entry 3), the PC 0, STATUS Running, and the configuration is the
one given. -/
def Obligations.ConstructionReachesTheResetState : Prop :=
  ∀ (c : Config.Construction) (d : Config.InputDevice) (o : Config.OutputDevice),
    romWellFormed c.rom = true → c.input = some d → c.output = some o →
    ∃ s, construct c = .next s ∧ s.pc = 0#16 ∧ s.status = .running ∧
      (∀ i, i ≠ 16 → i ≠ 17 → s.cell i = false) ∧
      (∀ v, deviceDue d = some v → s.inBit = v ∧ s.inReady = true ∧ s.awaiting = false) ∧
      ((∀ v, deviceDue d ≠ some v) → s.inBit = false ∧ s.inReady = false ∧ s.awaiting = true) ∧
      requestCount s.events = 1 ∧ outputBits s.events = [] ∧
      s.paging = c.paging ∧ s.rom = Memory.ofWords (c.rom.map (BitVec.ofNat 16))

/-- R166, with the spec's own decision D17 (log entry 9): a ROM that is not a non-empty sequence of 16-bit words is InvalidROM, an absent device is InvalidDevice, and neither
leaves a core. -/
def Obligations.ConstructionRefusesBadConfigurations : Prop :=
  ∀ c : Config.Construction,
    ((c.rom = [] ∨ ∃ v ∈ c.rom, 65536 ≤ v) → (∃ e, construct c = .refused (.noCore e)) ∧
      (devicesWellFormed c = true → construct c = .refused (.noCore .invalidRom))) ∧
    ((c.input = none ∨ c.output = none) → (∃ e, construct c = .refused (.noCore e)) ∧
      (romWellFormed c.rom = true → construct c = .refused (.noCore .invalidDevice)))

/-- The ROM built from a sequence of words holds it: `ROM[i]` below its length and no word beyond (R58), in the canonical form. -/
def Obligations.RomHoldsTheSequenceGiven : Prop :=
  ∀ (ws : List Word) (i : Nat), (Memory.ofWords ws).read i = ws[i]?

/-- The word placed for the next fetch is the one the step fetches and decodes; cells, PAGING, AWAITING and events stay (the
placement stands for the loader outside the core, log entry 2). -/
def Obligations.PlacedWordIsFetchedNext : Prop :=
  ∀ (s : State) (nbits w : Nat) (i : Instr), s.rom.wf = true → decodeTableWord nbits w = some i →
    ∃ w', (s.withFetchWord nbits w).fetch = some w' ∧ decode w' = i ∧
      (s.withFetchWord nbits w).status = .running ∧ (s.withFetchWord nbits w).rom.wf = true ∧
      (s.withFetchWord nbits w).regs = s.regs ∧ (s.withFetchWord nbits w).awaiting = s.awaiting ∧
      (s.withFetchWord nbits w).paging = s.paging ∧ (s.withFetchWord nbits w).events = s.events ∧
      ∀ j, j ≠ s.pc.toNat → j < s.rom.len → (s.withFetchWord nbits w).rom.read j = s.rom.read j

/-! ### The whole machine -/

/-- Every state construction can reach meets the invariant, and so does the reset state, whose empty ROM and quiet input device
are the model's choice (log entries 2 and 5). -/
def Obligations.ConstructedStatesMeetTheInvariant : Prop :=
  State.reset.Inv ∧ ∀ c s, construct c = .next s → s.Inv

/-- Every step keeps the invariant: the ROM image stays canonical; AWAITING is true exactly when one request is outstanding, and
never two are (R36, R37); a core that runs on has nothing left to send (R207) and its input channel is not `Consumed`
(R180). -/
def Obligations.StepKeepsTheInvariant : Prop :=
  ∀ s t : State, s.Inv → step s = .next t → t.Inv

/-- No step, and no number of steps, changes the ROM or PAGING (R8, R70, R202). -/
def Obligations.ConfigurationNeverChanges : Prop :=
  ∀ (n : Nat) (s t : State), Host.Core.run Sys2Proof.core n s = .next t → t.rom = s.rom ∧ t.paging = s.paging

/-- R63: PAGING is changed by no instruction, and acts only through the effective index of a `load`: where the fetched
instruction is no `load`, or its index is the same, the step is the same. -/
def Obligations.PagingActsOnlyThroughLoadsIndex : Prop :=
  ∀ (s t : State) (p : Bool),
    (∀ w a b, s.fetch = some w → decode w = .load a b → ({ s with paging := p } : State).effIdx a = s.effIdx a) →
    step s = .next t →
    t.paging = s.paging ∧ step { s with paging := p } = .next { t with paging := p }

/-- The hidden cells have no effect when PAGING is false (R33), but for a `copy` that reads them: two states that differ in
hidden cells only step to states that differ in hidden cells only. -/
def Obligations.HiddenCellsMatterOnlyToPaging : Prop :=
  ∀ s s' t : State, s.SameBut s' (fun c => 128 ≤ c) → s.paging = false →
    (∀ w a b, s.fetch = some w → decode w = .copy a b → a.toNat ≤ 112) →
    step s = .next t →
    ∃ t', step s' = .next t' ∧ t.SameBut t' (fun c => 128 ≤ c)

/-! ### Beside the core: pseudo-instructions, the ROM file, the byte-packing output device -/

/-- The effects of R90 under its conditions, each the meaning of its expansion: `not`, `clr`, `set`, `mov1` write one cell; `nop`
none; `jmpr` and `jmp` the PC word. Where no target of `jmp` is stored, its expansion faults and no cell changes. -/
def Obligations.PseudoInstructionsHaveTheirEffects : Prop :=
  ∀ (s : State) (a b : Addr) (n : Nat),
    (∃ t : State, execAll (Pseudo.not b).expand s = .next t ∧ t.cell b.toNat = (!s.cell b.toNat) ∧
      s.SameBut t (fun c => c = b.toNat)) ∧
    (∃ t : State, execAll (Pseudo.clr b).expand s = .next t ∧ t.cell b.toNat = false ∧ s.SameBut t (fun c => c = b.toNat)) ∧
    (∃ t : State, execAll (Pseudo.set b).expand s = .next t ∧ t.cell b.toNat = true ∧ s.SameBut t (fun c => c = b.toNat)) ∧
    ((Pseudo.mov1 a b).condition n s = true → ∃ t : State, execAll (Pseudo.mov1 a b).expand s = .next t ∧ t.cell b.toNat = s.cell a.toNat ∧
      s.SameBut t (fun c => c = b.toNat)) ∧
    (∃ t : State, execAll Pseudo.nop.expand s = .next t ∧ s.SameBut t (fun _ => False)) ∧
    (∃ t : State, execAll (Pseudo.jmpr a).expand s = .next t ∧ t.pc = s.readWord a.toNat) ∧
    ((Pseudo.jmp a).condition n s = true → ∃ (v : Word) (t : State), s.rom.read (s.effIdx a) = some v ∧
      execAll (Pseudo.jmp a).expand s = .next t ∧ t.pc = v) ∧
    ((Pseudo.jmp a).condition n s = false → ∃ t : State, execAll (Pseudo.jmp a).expand s = .next t ∧
      t.status = .faulted (.loadOutOfRange (s.effIdx a)) ∧ ∀ c, t.cell c = s.cell c)

/-- `halt` halts and `skipif c` skips the next instruction iff `x[c]`, each as the step of its one instruction, where R90's
condition holds of the ROM index it stands at. -/
def Obligations.HaltAndSkipifUnderTheirConditions : Prop :=
  ∀ (s : State) (i : Instr), s.status = .running → s.fetch = some (encode i) →
    (Pseudo.halt.expand = [i] → Pseudo.halt.condition s.pc.toNat s = true →
      ∃ t : State, step s = .next t ∧ t.status = .halted ∧ t.pc = s.pc) ∧
    (∀ c : Addr, (Pseudo.skipif c).expand = [i] → (Pseudo.skipif c).condition s.pc.toNat s = true →
      ∃ t : State, step s = .next t ∧ t.status = .running ∧
        t.pc = s.pc + if s.cell c.toNat then 2#16 else 1#16)

/-- R188: a ROM file is words of two bytes, byte `2i` the high byte of `ROM[i]` and byte `2i + 1` the low one; an odd length is
no ROM file. -/
def Obligations.RomFileIsBigEndian : Prop :=
  ∀ bytes : List (BitVec 8),
    (romWordsOfBytes bytes = none ↔ bytes.length % 2 = 1) ∧
    ∀ ws, romWordsOfBytes bytes = some ws → bytes.length = 2 * ws.length ∧
      ∀ i, i < ws.length → ∃ hi lo, bytes[2 * i]? = some hi ∧ bytes[2 * i + 1]? = some lo ∧ ws[i]? = some (hi ++ lo)

/-- The byte-packing output device flushes one byte for every eight bits, the first most significant, and no partial byte
(R189). -/
def Obligations.OutputBitsPackMostSignificantFirst : Prop :=
  ∀ bits : List Bool,
    (packedBytes bits).length = bits.length / 8 ∧
    ∀ i j, i < bits.length / 8 → j < 8 →
      ∃ y, (packedBytes bits)[i]? = some y ∧ bits[8 * i + j]? = some (y.getMsbD j)
end

