-- ==== Sys2Proof/Laws/State.lean ====
section
/-! SUPPORT. One lemma per field per update of State, so that no later proof unfolds a record update. -/

namespace Sys2Proof.Machine

variable (s : State) (i a : Nat) (b : Bool) (v : Word) (c : Fault) (e : Event)

@[simp] theorem setCell_awaiting : (s.setCell i b).awaiting = s.awaiting := rfl
@[simp] theorem setCell_status : (s.setCell i b).status = s.status := rfl
@[simp] theorem setCell_rom : (s.setCell i b).rom = s.rom := rfl
@[simp] theorem setCell_paging : (s.setCell i b).paging = s.paging := rfl
@[simp] theorem setCell_inputDevice : (s.setCell i b).inputDevice = s.inputDevice := rfl
@[simp] theorem setCell_events : (s.setCell i b).events = s.events := rfl

@[simp] theorem writeWord_awaiting : (s.writeWord a v).awaiting = s.awaiting := rfl
@[simp] theorem writeWord_status : (s.writeWord a v).status = s.status := rfl
@[simp] theorem writeWord_rom : (s.writeWord a v).rom = s.rom := rfl
@[simp] theorem writeWord_paging : (s.writeWord a v).paging = s.paging := rfl
@[simp] theorem writeWord_inputDevice : (s.writeWord a v).inputDevice = s.inputDevice := rfl
@[simp] theorem writeWord_events : (s.writeWord a v).events = s.events := rfl

@[simp] theorem setPc_awaiting : (s.setPc v).awaiting = s.awaiting := rfl
@[simp] theorem setPc_status : (s.setPc v).status = s.status := rfl
@[simp] theorem setPc_rom : (s.setPc v).rom = s.rom := rfl
@[simp] theorem setPc_paging : (s.setPc v).paging = s.paging := rfl
@[simp] theorem setPc_inputDevice : (s.setPc v).inputDevice = s.inputDevice := rfl
@[simp] theorem setPc_events : (s.setPc v).events = s.events := rfl

@[simp] theorem raiseFault_regs : (s.raiseFault c).regs = s.regs := rfl
@[simp] theorem raiseFault_awaiting : (s.raiseFault c).awaiting = s.awaiting := rfl
@[simp] theorem raiseFault_status : (s.raiseFault c).status = .faulted c := rfl
@[simp] theorem raiseFault_rom : (s.raiseFault c).rom = s.rom := rfl
@[simp] theorem raiseFault_paging : (s.raiseFault c).paging = s.paging := rfl
@[simp] theorem raiseFault_inputDevice : (s.raiseFault c).inputDevice = s.inputDevice := rfl
@[simp] theorem raiseFault_events : (s.raiseFault c).events = s.events := rfl

@[simp] theorem halt_regs : s.halt.regs = s.regs := rfl
@[simp] theorem halt_awaiting : s.halt.awaiting = s.awaiting := rfl
@[simp] theorem halt_status : s.halt.status = .halted := rfl
@[simp] theorem halt_rom : s.halt.rom = s.rom := rfl
@[simp] theorem halt_paging : s.halt.paging = s.paging := rfl
@[simp] theorem halt_inputDevice : s.halt.inputDevice = s.inputDevice := rfl
@[simp] theorem halt_events : s.halt.events = s.events := rfl

@[simp] theorem emit_regs : (s.emit e).regs = s.regs := rfl
@[simp] theorem emit_awaiting : (s.emit e).awaiting = s.awaiting := rfl
@[simp] theorem emit_status : (s.emit e).status = s.status := rfl
@[simp] theorem emit_rom : (s.emit e).rom = s.rom := rfl
@[simp] theorem emit_paging : (s.emit e).paging = s.paging := rfl
@[simp] theorem emit_inputDevice : (s.emit e).inputDevice = s.inputDevice := rfl
@[simp] theorem emit_events : (s.emit e).events = s.events ++ [e] := rfl

end Sys2Proof.Machine
end

