-- ==== Sys2Proof/Laws/Ops.lean ====
section
/-! SUPPORT. What the register-file operations of Machine/Ops.lean do, once each: bit access, word read and word write as facts about cells. -/

namespace Sys2Proof.Machine

/-- The cells of a state are those of its register file alone. -/
theorem cell_congr {s t : State} (h : t.regs = s.regs) (i : Nat) : t.cell i = s.cell i := by
  simp [State.cell, h]

@[simp] theorem raiseFault_cell (s : State) (c : Fault) (i : Nat) : (s.raiseFault c).cell i = s.cell i := rfl
@[simp] theorem halt_cell (s : State) (i : Nat) : s.halt.cell i = s.cell i := rfl
@[simp] theorem emit_cell (s : State) (e : Event) (i : Nat) : (s.emit e).cell i = s.cell i := rfl

/-- There is no cell beyond 142; it reads false (R22). -/
theorem cell_beyond (s : State) {i : Nat} (h : 143 ≤ i) : s.cell i = false := by
  simp [State.cell, cellAt, h]

/-- Two states with the same cells 0 to 142 have the same register file. -/
theorem regs_ext {s t : State} (h : ∀ i, i < 143 → t.cell i = s.cell i) : t.regs = s.regs := by
  apply Vector.ext
  intro i hi
  simpa [State.cell, cellAt, hi] using h i hi

/-- A change of one cell is seen at that cell, if it exists, and nowhere else. -/
theorem cellAt_setCellAt (x : Cells) (i j : Nat) (b : Bool) :
    cellAt (setCellAt x i b) j = if j = i ∧ i < 143 then b else cellAt x j := by
  have hl : x.toList.length = 143 := by simp
  simp only [cellAt, setCellAt, Vector.toList_mk, List.getD_eq_getElem?_getD, List.getElem?_set, hl]
  by_cases hij : i = j
  · subst hij
    by_cases hi : i < 143 <;> simp [hi]
  · simp [hij, Ne.symm hij]

/-- A bit write changes one physical cell and no other (R51). -/
theorem cell_setCell (s : State) (i j : Nat) (b : Bool) :
    (s.setCell i b).cell j = if j = i ∧ i < 143 then b else s.cell j :=
  cellAt_setCellAt s.regs i j b

theorem cell_setCell_self (s : State) {i : Nat} (h : i < 143) (b : Bool) : (s.setCell i b).cell i = b := by
  simp [cell_setCell, h]

theorem cell_setCell_ne (s : State) {i j : Nat} (h : j ≠ i) (b : Bool) :
    (s.setCell i b).cell j = s.cell j := by
  simp [cell_setCell, h]

/-- The value of `n` cells, bit by bit: the first cell is the most significant of the `n` bits. -/
theorem testBit_bitsValue (cells : List Bool) (acc n j : Nat) :
    (bitsValue acc n cells).testBit j = if j < n then cells.getD (n - 1 - j) false else acc.testBit (j - n) := by
  induction cells generalizing acc n with
  | nil =>
    by_cases h : j < n
    · simp [bitsValue, Nat.testBit_shiftLeft, h]
    · simp [bitsValue, Nat.testBit_shiftLeft, h]; omega
  | cons b rest ih =>
    cases n with
    | zero => simp [bitsValue]
    | succ n =>
      rw [bitsValue, ih]
      rcases Nat.lt_trichotomy j n with h | rfl | h
      · rw [if_pos h, if_pos (by omega), show n + 1 - 1 - j = (n - 1 - j) + 1 from by omega]
        simp
      · cases b <;> simp [Nat.testBit_zero, Nat.add_mod]
      · obtain ⟨m, rfl⟩ : ∃ m, j = n + 1 + m := ⟨j - (n + 1), by omega⟩
        rw [if_neg (by omega), if_neg (by omega), show n + 1 + m - n = m + 1 from by omega, Nat.testBit_succ,
          show n + 1 + m - (n + 1) = m from by omega]
        congr 1
        cases b
        · simp
        · simp; omega

/-- A word read, bit by bit: cell `a + k` is bit `15 - k` (R52). -/
theorem getMsbD_readWord (s : State) (a : Nat) {k : Nat} (h : k < 16) :
    (s.readWord a).getMsbD k = s.cell (a + k) := by
  rw [BitVec.getMsbD, State.readWord, BitVec.getLsbD_ofNat, testBit_bitsValue, State.cell, cellAt]
  simp [h, show 15 - k < 16 from by omega, show 15 - (15 - k) = k from by omega]

theorem getLsbD_readWord (s : State) (a : Nat) {k : Nat} (h : k < 16) :
    (s.readWord a).getLsbD k = s.cell (a + (15 - k)) := by
  rw [← getMsbD_readWord s a (by omega : 15 - k < 16), BitVec.getMsbD]
  simp [show 16 - 1 - (15 - k) = k from by omega]
  omega

/-- Two words with the same bits from the top are equal. -/
theorem word_ext {v w : Word} (h : ∀ k, k < 16 → v.getMsbD k = w.getMsbD k) : v = w :=
  BitVec.eq_of_getMsbD_eq fun k hk => h k hk

/-- A word read sees its 16 cells and nothing else. -/
theorem readWord_congr {s t : State} {a b : Nat} (h : ∀ k, k < 16 → t.cell (b + k) = s.cell (a + k)) :
    t.readWord b = s.readWord a :=
  word_ext fun k hk => by rw [getMsbD_readWord t b hk, getMsbD_readWord s a hk, h k hk]

theorem getD_spliceWord (a : Nat) (v : Word) (pos : Nat) (cells : List Bool) (c : Nat) :
    (spliceWord a v pos cells).getD c false =
      if a ≤ pos + c ∧ pos + c < a + 16 ∧ c < cells.length then v.getMsbD (pos + c - a) else cells.getD c false := by
  induction cells generalizing pos c with
  | nil => simp [spliceWord]
  | cons b rest ih =>
    cases c with
    | zero => simp [spliceWord]
    | succ c =>
      have := ih (pos + 1) c
      simp only [spliceWord, List.getD_cons_succ, this, List.length_cons]
      rw [show pos + 1 + c = pos + (c + 1) from by omega]
      simp

/-- Everything a word write can do to the register file (R53): the cells of the word get its bits, no other cell changes. -/
theorem cell_writeWord (s : State) (a : Nat) (v : Word) (c : Nat) :
    (s.writeWord a v).cell c = if a ≤ c ∧ c < a + 16 ∧ c < 143 then v.getMsbD (c - a) else s.cell c := by
  have h := getD_spliceWord a v 0 s.regs.toList c
  simpa [State.cell, State.writeWord, setWordAt, cellAt] using h

theorem cell_writeWord_in (s : State) {a k : Nat} (v : Word) (hk : k < 16) (ha : a + k < 143) :
    (s.writeWord a v).cell (a + k) = v.getMsbD k := by
  rw [cell_writeWord, if_pos ⟨by omega, by omega, ha⟩, Nat.add_sub_cancel_left]

theorem cell_writeWord_out (s : State) {a c : Nat} (v : Word) (h : ¬ (a ≤ c ∧ c < a + 16)) :
    (s.writeWord a v).cell c = s.cell c := by
  rw [cell_writeWord, if_neg (by omega)]

/-- The PC word after a write of it. -/
theorem pc_setPc (s : State) (v : Word) : (s.setPc v).pc = v :=
  word_ext fun k hk => by
    rw [State.pc, State.setPc, getMsbD_readWord _ _ hk, cell_writeWord_in _ _ hk (by simp [Config.pcCell]; omega)]

theorem cell_setPc_out (s : State) (v : Word) {c : Nat} (h : 16 ≤ c) : (s.setPc v).cell c = s.cell c :=
  cell_writeWord_out _ _ (by simp [Config.pcCell]; omega)

theorem pc_congr {s t : State} (h : ∀ c, c < 16 → t.cell c = s.cell c) : t.pc = s.pc :=
  readWord_congr fun k hk => by simpa [Config.pcCell] using h k hk

@[simp] theorem raiseFault_pc (s : State) (c : Fault) : (s.raiseFault c).pc = s.pc := pc_congr fun _ _ => rfl
@[simp] theorem halt_pc (s : State) : s.halt.pc = s.pc := pc_congr fun _ _ => rfl
@[simp] theorem emit_pc (s : State) (e : Event) : (s.emit e).pc = s.pc := pc_congr fun _ _ => rfl

end Sys2Proof.Machine
end

