-- ==== Sys2Proof/Laws/Operands.lean ====
section
/-! SUPPORT. What the operand forms read and write. -/

namespace Sys2Proof.Machine

/-- A 7-bit address is below 128, so a word from it stays inside the register file (R54). -/
theorem addr_lt (a : Addr) : a.toNat < 128 := a.isLt

theorem putWord_eq (s : State) (b : Addr) (v : Word) : s.putWord b v = s.writeWord b.toNat v := rfl
theorem wordOperand_eq (s : State) (a : Addr) : s.wordOperand a = s.readWord a.toNat := rfl
theorem putBit_eq (s : State) (b : Addr) (v : Bool) : s.putBit b v = s.setCell b.toNat v := rfl
theorem bitOperand_eq (s : State) (a : Addr) : s.bitOperand a = s.cell a.toNat := rfl

/-- A word result gets the value's bits in its 16 cells (R53, R54). -/
theorem cell_putWord_in (s : State) (b : Addr) (v : Word) {k : Nat} (hk : k < 16) :
    (s.putWord b v).cell (b.toNat + k) = v.getMsbD k :=
  cell_writeWord_in s v hk (by have := addr_lt b; omega)

/-- and no other cell changes. -/
theorem cell_putWord_out (s : State) (b : Addr) (v : Word) {c : Nat} (h : ¬ (b.toNat ≤ c ∧ c < b.toNat + 16)) :
    (s.putWord b v).cell c = s.cell c :=
  cell_writeWord_out s v h

/-- A bit result changes its cell alone (R51). -/
theorem cell_putBit (s : State) (b : Addr) (v : Bool) (c : Nat) :
    (s.putBit b v).cell c = if c = b.toNat then v else s.cell c := by
  have := addr_lt b
  rw [putBit_eq, cell_setCell]
  simp [show b.toNat < 143 from by omega]

/-- The page number sees the cells from 128 on, and nothing else of the state. -/
theorem pageNumber_congr {s t : State} (h : ∀ c, 128 ≤ c → t.cell c = s.cell c) : t.pageNumber = s.pageNumber := by
  unfold State.pageNumber State.pagingRead
  rw [readWord_congr (s := s) (t := t) (a := Config.hiddenCell) (b := Config.hiddenCell)
    fun k _ => h _ (by simp [Config.hiddenCell])]

/-- The effective index sees PAGING and the cells from 128 on, and nothing else of the state. -/
theorem effIdx_congr {s t : State} (hp : t.paging = s.paging) (h : ∀ c, 128 ≤ c → t.cell c = s.cell c) (a : Addr) :
    t.effIdx a = s.effIdx a := by
  unfold State.effIdx
  rw [hp, pageNumber_congr h]

end Sys2Proof.Machine
end

