-- ==== Sys2Proof/Laws/Exec.lean ====
section
/-! SUPPORT. What an instruction can do, said once: later proofs cite these instead of unfolding a meaning. -/

namespace Sys2Proof.Machine

/-- The forms a next state of an instruction can have. -/
theorem exec_cases {i : Instr} {s t : State} (h : exec i s = .next t) :
    (∃ a b, i = .copy a b ∧ t = s.putWord b (s.wordOperand a)) ∨
    (∃ a b v, i = .load a b ∧ s.rom.read (s.effIdx a) = some v ∧ t = s.putWord b v) ∨
    (∃ a b, i = .load a b ∧ s.rom.read (s.effIdx a) = none ∧
      t = s.raiseFault (.loadOutOfRange (s.effIdx a))) ∨
    (∃ a b, i = .nand a b ∧ t = s.putBit b (nandGate (s.bitOperand a) (s.bitOperand b))) ∨
    (∃ a b, i = .xor a b ∧ t = s.putBit b (xorGate (s.bitOperand a) (s.bitOperand b))) := by
  cases i with
  | copy a b => exact .inl ⟨a, b, rfl, by cases h; rfl⟩
  | load a b =>
    simp only [exec, execLoad] at h
    split at h
    · rename_i v hv
      exact .inr (.inl ⟨a, b, v, rfl, hv, by cases h; rfl⟩)
    · rename_i hv
      exact .inr (.inr (.inl ⟨a, b, rfl, hv, by cases h; rfl⟩))
  | nand a b => exact .inr (.inr (.inr (.inl ⟨a, b, rfl, by cases h; rfl⟩)))
  | xor a b => exact .inr (.inr (.inr (.inr ⟨a, b, rfl, by cases h; rfl⟩)))

/-- A load with a ROM word at its index writes it. -/
theorem execLoad_some {a b : Addr} {s : State} {v : Word} (h : s.rom.read (s.effIdx a) = some v) :
    exec (.load a b) s = .next (s.putWord b v) := by
  simp only [exec, execLoad, h]

/-- A load without one raises its fault. -/
theorem execLoad_none {a b : Addr} {s : State} (h : s.rom.read (s.effIdx a) = none) :
    exec (.load a b) s = .next (s.raiseFault (.loadOutOfRange (s.effIdx a))) := by
  simp only [exec, execLoad, h]

/-- No instruction touches AWAITING, the configuration, the input device or the events (R34, R36, R63). -/
theorem exec_fields {i : Instr} {s t : State} (h : exec i s = .next t) :
    t.awaiting = s.awaiting ∧ t.rom = s.rom ∧ t.paging = s.paging ∧ t.inputDevice = s.inputDevice ∧
      t.events = s.events := by
  obtain ⟨a, b, rfl, rfl⟩ | ⟨a, b, v, rfl, -, rfl⟩ | ⟨a, b, rfl, -, rfl⟩ | ⟨a, b, rfl, rfl⟩ | ⟨a, b, rfl, rfl⟩ :=
    exec_cases h <;> simp [putWord_eq, putBit_eq]

/-- An instruction leaves STATUS alone, but for the fault of a load (R164). -/
theorem exec_status {i : Instr} {s t : State} (h : exec i s = .next t) :
    t.status = s.status ∨ ∃ a b, i = .load a b ∧ s.rom.read (s.effIdx a) = none ∧
      t = s.raiseFault (.loadOutOfRange (s.effIdx a)) := by
  obtain ⟨a, b, rfl, rfl⟩ | ⟨a, b, v, rfl, -, rfl⟩ | ⟨a, b, rfl, hr, rfl⟩ | ⟨a, b, rfl, rfl⟩ | ⟨a, b, rfl, rfl⟩ :=
    exec_cases h
  · simp [putWord_eq]
  · simp [putWord_eq]
  · exact .inr ⟨a, b, rfl, hr, rfl⟩
  · simp [putBit_eq]
  · simp [putBit_eq]

end Sys2Proof.Machine
end

