-- ==== Sys2Proof/Laws/Memory.lean ====
section
/-! SUPPORT. The ROM image: every operation keeps its canonical form, and a placed word is read back with every other index unchanged. -/

namespace Sys2Proof.Machine

/-- A canonical list from a higher index is one from a lower index. -/
theorem wfFrom_mono {lo lo' len len' : Nat} {ws : List (Nat × Word)} (h : Memory.wfFrom lo' len ws = true)
    (hlo : lo ≤ lo') (hlen : len ≤ len') : Memory.wfFrom lo len' ws = true := by
  induction ws generalizing lo lo' with
  | nil => rfl
  | cons p rest ih =>
    obtain ⟨i, w⟩ := p
    simp only [Memory.wfFrom, Bool.and_eq_true, decide_eq_true_eq] at h ⊢
    exact ⟨⟨⟨by omega, by omega⟩, h.1.2⟩, ih h.2 (le_refl _)⟩

/-- An index below the list's first is not listed. -/
theorem lookup_below {lo len i : Nat} {ws : List (Nat × Word)} (h : Memory.wfFrom lo len ws = true) (hi : i < lo) :
    Memory.lookup ws i = Memory.unlisted := by
  induction ws generalizing lo with
  | nil => rfl
  | cons p rest ih =>
    obtain ⟨j, w⟩ := p
    simp only [Memory.wfFrom, Bool.and_eq_true, decide_eq_true_eq] at h
    rw [Memory.lookup, if_neg (by omega), ih h.2 (by omega)]

/-- An index at or beyond the length is not listed. -/
theorem lookup_beyond {lo len i : Nat} {ws : List (Nat × Word)} (h : Memory.wfFrom lo len ws = true) (hi : len ≤ i) :
    Memory.lookup ws i = Memory.unlisted := by
  induction ws generalizing lo with
  | nil => rfl
  | cons p rest ih =>
    obtain ⟨j, w⟩ := p
    simp only [Memory.wfFrom, Bool.and_eq_true, decide_eq_true_eq] at h
    rw [Memory.lookup, if_neg (by omega), ih h.2]

/-- Insertion keeps the canonical form. -/
theorem wfFrom_insert {lo len len' i : Nat} {ws : List (Nat × Word)} (h : Memory.wfFrom lo len ws = true)
    (hlo : lo ≤ i) (hi : i < len') (hlen : len ≤ len') (w : Word) :
    Memory.wfFrom lo len' (Memory.insert ws i w) = true := by
  induction ws generalizing lo with
  | nil => by_cases hw : w = Memory.unlisted <;> simp [Memory.insert, Memory.wfFrom, hw, hlo, hi]
  | cons p rest ih =>
    obtain ⟨j, v⟩ := p
    have hc := h
    simp only [Memory.wfFrom, Bool.and_eq_true, decide_eq_true_eq] at h
    obtain ⟨⟨⟨h1, h2⟩, h3⟩, h4⟩ := h
    have hrest : Memory.wfFrom (j + 1) len' rest = true := wfFrom_mono h4 (le_refl _) hlen
    rw [Memory.insert]
    split
    · split
      · exact wfFrom_mono hc (le_refl _) hlen
      · simp only [Memory.wfFrom, Bool.and_eq_true, decide_eq_true_eq]
        refine ⟨⟨⟨hlo, hi⟩, by assumption⟩, ⟨⟨by omega, by omega⟩, h3⟩, hrest⟩
    · split
      · subst_vars
        split
        · exact wfFrom_mono hrest (by omega) (le_refl _)
        · simp only [Memory.wfFrom, Bool.and_eq_true, decide_eq_true_eq]
          exact ⟨⟨⟨hlo, hi⟩, by assumption⟩, hrest⟩
      · simp only [Memory.wfFrom, Bool.and_eq_true, decide_eq_true_eq]
        exact ⟨⟨⟨h1, by omega⟩, h3⟩, ih h4 (by omega)⟩

/-- What is read after an insertion. -/
theorem lookup_insert {lo len : Nat} {ws : List (Nat × Word)} (h : Memory.wfFrom lo len ws = true) (i j : Nat)
    (w : Word) : Memory.lookup (Memory.insert ws i w) j = if j = i then w else Memory.lookup ws j := by
  induction ws generalizing lo with
  | nil =>
    by_cases hw : w = Memory.unlisted
    · subst hw; simp [Memory.insert, Memory.lookup]
    · by_cases hj : j = i
      · subst hj; simp [Memory.insert, Memory.lookup, hw]
      · simp [Memory.insert, Memory.lookup, hw, hj, Ne.symm hj]
  | cons p rest ih =>
    obtain ⟨k, v⟩ := p
    have hc := h
    simp only [Memory.wfFrom, Bool.and_eq_true, decide_eq_true_eq] at h
    obtain ⟨⟨⟨h1, h2⟩, h3⟩, h4⟩ := h
    rw [Memory.insert]
    split
    · rename_i hik
      have hbelow : Memory.lookup ((k, v) :: rest) i = Memory.unlisted := by
        rw [Memory.lookup, if_neg (by omega), lookup_below h4 (by omega)]
      split
      · rename_i hw
        by_cases hj : j = i
        · subst hj; rw [hbelow, if_pos rfl, hw]
        · rw [if_neg hj]
      · rw [Memory.lookup]
        by_cases hj : j = i
        · simp [hj]
        · rw [if_neg (Ne.symm hj), if_neg hj]
    · split
      · rename_i hik
        subst hik
        split
        · rename_i hw
          by_cases hj : j = i
          · subst hj; rw [if_pos rfl, lookup_below h4 (by omega), hw]
          · rw [if_neg hj, Memory.lookup, if_neg (Ne.symm hj)]
        · simp only [Memory.lookup]
          by_cases hj : j = i
          · simp [hj]
          · rw [if_neg (Ne.symm hj), if_neg hj, if_neg (Ne.symm hj)]
      · rename_i h5 h6
        rw [Memory.lookup, Memory.lookup, ih h4]
        by_cases hk : k = j
        · subst hk; rw [if_pos rfl, if_pos rfl, if_neg (Ne.symm h6)]
        · rw [if_neg hk, if_neg hk]

theorem empty_wf : Memory.empty.wf = true := rfl

/-- Placing a word keeps the canonical form. -/
theorem place_wf {m : Memory} (h : m.wf = true) (i : Nat) (w : Word) : (m.place i w).wf = true :=
  wfFrom_insert h (Nat.zero_le _) (by simp [Memory.place]) (by simp [Memory.place]) w

theorem wfFrom_listed (base : Nat) (ws : List Word) :
    Memory.wfFrom base (base + ws.length) (Memory.listed base ws) = true := by
  induction ws generalizing base with
  | nil => rfl
  | cons w rest ih =>
    have h := ih (base + 1)
    rw [show base + 1 + rest.length = base + (w :: rest).length from by simp; omega] at h
    rw [Memory.listed]
    split
    · exact wfFrom_mono h (by omega) (le_refl _)
    · simp only [Memory.wfFrom, Bool.and_eq_true, decide_eq_true_eq]
      exact ⟨⟨⟨le_refl _, by simp⟩, by assumption⟩, h⟩

/-- The ROM made from a sequence has the canonical form. -/
theorem ofWords_wf (ws : List Word) : (Memory.ofWords ws).wf = true := by
  simpa [Memory.wf, Memory.ofWords] using wfFrom_listed 0 ws

/-- A ROM word exists exactly below `ROM_LEN` (R58). -/
theorem read_eq_none {m : Memory} {i : Nat} : m.read i = none ↔ m.len ≤ i := by
  simp [Memory.read]

theorem read_eq_some {m : Memory} {i : Nat} {w : Word} :
    m.read i = some w ↔ i < m.len ∧ Memory.lookup m.words i = w := by
  simp [Memory.read]

/-- The placed word is read at its index. -/
theorem read_place_self {m : Memory} (h : m.wf = true) (i : Nat) (w : Word) : (m.place i w).read i = some w := by
  rw [read_eq_some]
  exact ⟨by simp [Memory.place], by simp [Memory.place, lookup_insert h]⟩

/-- Every other index reads as before. -/
theorem read_place_ne {m : Memory} (h : m.wf = true) {i j : Nat} (w : Word) (hj : j ≠ i) (hl : j < m.len) :
    (m.place i w).read j = m.read j := by
  have h1 : j < max m.len (i + 1) := by omega
  simp [Memory.read, Memory.place, lookup_insert h, hj, hl]

end Sys2Proof.Machine
end

