-- ==== Sys2Proof/Laws/Io.lean ====
section
/-! SUPPORT. What the handshake operations do, field by field. -/

namespace Sys2Proof.Machine

variable (s : State) (v : Bool)

@[simp] theorem outputService_awaiting : s.outputService.awaiting = s.awaiting := by
  unfold State.outputService; split <;> rfl
@[simp] theorem outputService_status : s.outputService.status = s.status := by
  unfold State.outputService; split <;> rfl
@[simp] theorem outputService_rom : s.outputService.rom = s.rom := by
  unfold State.outputService; split <;> rfl
@[simp] theorem outputService_paging : s.outputService.paging = s.paging := by
  unfold State.outputService; split <;> rfl
@[simp] theorem outputService_inputDevice : s.outputService.inputDevice = s.inputDevice := by
  unfold State.outputService; split <;> rfl

theorem outputService_events :
    s.outputService.events = s.events ++ if s.outReady then [.output s.outBit] else [] := by
  unfold State.outputService; split <;> simp

/-- After the output service OUT_READY is clear; no other cell changes. -/
theorem cell_outputService (c : Nat) : s.outputService.cell c = if c = 19 then false else s.cell c := by
  unfold State.outputService
  split
  · rw [cell_setCell]; simp [Config.outReadyCell]
  · by_cases hc : c = 19
    · subst hc; simp_all [State.outReady, Config.outReadyCell]
    · rw [if_neg hc]

@[simp] theorem inputService_regs : s.inputService.regs = s.regs := by
  unfold State.inputService; split <;> rfl
@[simp] theorem inputService_status : s.inputService.status = s.status := by
  unfold State.inputService; split <;> rfl
@[simp] theorem inputService_rom : s.inputService.rom = s.rom := by
  unfold State.inputService; split <;> rfl
@[simp] theorem inputService_paging : s.inputService.paging = s.paging := by
  unfold State.inputService; split <;> rfl
@[simp] theorem inputService_inputDevice : s.inputService.inputDevice = s.inputDevice := by
  unfold State.inputService; split <;> rfl

theorem inputService_awaiting : s.inputService.awaiting = (s.awaiting || !s.inReady) := by
  unfold State.inputService
  split
  · rename_i h; simp [h.1]
  · cases h1 : s.inReady <;> cases h2 : s.awaiting <;> simp_all

theorem inputService_events :
    s.inputService.events = s.events ++ if s.inReady = false ∧ s.awaiting = false then [.inputRequest] else [] := by
  unfold State.inputService; split <;> simp

@[simp] theorem service_status : s.service.status = s.status := by simp [State.service]
@[simp] theorem service_rom : s.service.rom = s.rom := by simp [State.service]
@[simp] theorem service_paging : s.service.paging = s.paging := by simp [State.service]
@[simp] theorem service_inputDevice : s.service.inputDevice = s.inputDevice := by simp [State.service]

/-- The output service does not touch IN_READY, which the input service reads after it. -/
theorem outputService_inReady : s.outputService.inReady = s.inReady := by
  simp [State.inReady, cell_outputService, Config.inReadyCell]

/-- The service phase clears OUT_READY; no other cell changes. -/
theorem cell_service (c : Nat) : s.service.cell c = if c = 19 then false else s.cell c := by
  rw [State.service, cell_congr (inputService_regs _), cell_outputService]

theorem service_awaiting : s.service.awaiting = (s.awaiting || !s.inReady) := by
  rw [State.service, inputService_awaiting, outputService_inReady, outputService_awaiting]

/-- The events of the service phase: the output, then the input request (D8). -/
theorem service_events :
    s.service.events = s.events ++ (if s.outReady then [.output s.outBit] else []) ++
      if s.inReady = false ∧ s.awaiting = false then [.inputRequest] else [] := by
  rw [State.service, inputService_events, outputService_events, outputService_inReady, outputService_awaiting]

theorem pc_service : s.service.pc = s.pc :=
  pc_congr fun c hc => by rw [cell_service, if_neg (by omega)]

@[simp] theorem complete_awaiting : (s.complete v).awaiting = false := rfl
@[simp] theorem complete_status : (s.complete v).status = s.status := rfl
@[simp] theorem complete_rom : (s.complete v).rom = s.rom := rfl
@[simp] theorem complete_paging : (s.complete v).paging = s.paging := rfl
@[simp] theorem complete_inputDevice : (s.complete v).inputDevice = s.inputDevice := rfl
@[simp] theorem complete_events : (s.complete v).events = s.events ++ [.inputCompletion v] := rfl

/-- A completion writes IN_BIT and IN_READY and no other cell (R178). -/
theorem cell_complete (c : Nat) :
    (s.complete v).cell c = if c = 16 then v else if c = 17 then true else s.cell c := by
  have : (s.complete v).cell c = ((s.setCell 16 v).setCell 17 true).cell c := rfl
  rw [this, cell_setCell, cell_setCell]
  by_cases h1 : c = 16
  · subst h1; simp
  · by_cases h2 : c = 17
    · subst h2; simp
    · simp [h1, h2]

@[simp] theorem deviceMoved_regs : s.deviceMoved.regs = s.regs := rfl
@[simp] theorem deviceMoved_awaiting : s.deviceMoved.awaiting = s.awaiting := rfl
@[simp] theorem deviceMoved_status : s.deviceMoved.status = s.status := rfl
@[simp] theorem deviceMoved_rom : s.deviceMoved.rom = s.rom := rfl
@[simp] theorem deviceMoved_paging : s.deviceMoved.paging = s.paging := rfl
@[simp] theorem deviceMoved_inputDevice : s.deviceMoved.inputDevice = devicePassed s.inputDevice s.awaiting := rfl
@[simp] theorem deviceMoved_events : s.deviceMoved.events = s.events := rfl

/-- What a step boundary can do: the device moves on, and either nothing else happens or the outstanding request completes
(R179). -/
theorem deviceTurn_cases :
    s.deviceTurn = s.deviceMoved ∨
    ∃ v, deviceDue s.inputDevice = some v ∧ s.awaiting = true ∧ s.deviceTurn = s.deviceMoved.complete v := by
  unfold State.deviceTurn
  split
  · rename_i v h
    split
    · rename_i ha; exact .inr ⟨v, h, ha, rfl⟩
    · exact .inl rfl
  · exact .inl rfl

/-- Without a completion due, a step boundary only moves the device on. -/
theorem deviceTurn_quiet (h : s.awaiting = false ∨ ∀ v, deviceDue s.inputDevice ≠ some v) :
    s.deviceTurn = s.deviceMoved := by
  rcases deviceTurn_cases s with hq | ⟨v, hv, ha, -⟩
  · exact hq
  · rcases h with h | h
    · simp [ha] at h
    · exact absurd hv (h v)

/-- A completion that is due lands. -/
theorem deviceTurn_due (v : Bool) (ha : s.awaiting = true) (hd : deviceDue s.inputDevice = some v) :
    s.deviceTurn = s.deviceMoved.complete v := by
  simp [State.deviceTurn, hd, ha]

/-- How many boundaries at most the device lets pass while a request is outstanding. -/
def deviceLeft (d : Config.InputDevice) : Nat := d.schedule.length + d.wait

/-- A boundary the device lets pass while a request is outstanding brings its completion nearer. -/
theorem deviceLeft_passed (d : Config.InputDevice) (h : ∀ v, deviceDue d ≠ some v) :
    deviceLeft (devicePassed d true) + 1 = deviceLeft d := by
  unfold deviceDue at h
  unfold devicePassed deviceLeft
  split
  · rename_i hs; simp [hs]; omega
  · rename_i hs
    cases hw : d.wait with
    | zero => simp [hs, hw] at h
    | succ n => simp [hs]

@[simp] theorem deviceTurn_status : s.deviceTurn.status = s.status := by
  rcases deviceTurn_cases s with h | ⟨v, -, -, h⟩ <;> simp [h]
@[simp] theorem deviceTurn_rom : s.deviceTurn.rom = s.rom := by
  rcases deviceTurn_cases s with h | ⟨v, -, -, h⟩ <;> simp [h]
@[simp] theorem deviceTurn_paging : s.deviceTurn.paging = s.paging := by
  rcases deviceTurn_cases s with h | ⟨v, -, -, h⟩ <;> simp [h]
@[simp] theorem deviceTurn_inputDevice : s.deviceTurn.inputDevice = devicePassed s.inputDevice s.awaiting := by
  rcases deviceTurn_cases s with h | ⟨v, -, -, h⟩ <;> simp [h]

/-- A step boundary changes no cell but IN_BIT and IN_READY. -/
theorem cell_deviceTurn {c : Nat} (h16 : c ≠ 16) (h17 : c ≠ 17) : s.deviceTurn.cell c = s.cell c := by
  rcases deviceTurn_cases s with h | ⟨v, -, -, h⟩
  · rw [h]; rfl
  · rw [h, cell_complete, if_neg h16, if_neg h17]; rfl

theorem pc_deviceTurn : s.deviceTurn.pc = s.pc :=
  pc_congr fun c hc => cell_deviceTurn s (by omega) (by omega)

/-- The state of construction, cell by cell: every cell false (R41). -/
theorem cell_constructed (rom : Memory) (paging : Bool) (device : Config.InputDevice) (c : Nat) :
    (State.constructed rom paging device).cell c = false := by
  by_cases h : 143 ≤ c
  · exact cell_beyond _ h
  · simp only [State.cell, State.constructed, cellAt, resetCells, Config.resetFill, Vector.toList_mk]
    rw [List.getD_eq_getElem?_getD, ← List.replicate_add, List.getElem?_replicate]
    split <;> rfl

end Sys2Proof.Machine
end

