-- ==== Sys2Proof/Laws/Cycle.lean ====
section
/-! SUPPORT. What a step can do, said once: each phase, and the forms its next state can have. -/

namespace Sys2Proof.Machine

variable (s : State)

@[simp] theorem advancePc_awaiting : s.advancePc.awaiting = s.awaiting := by simp [State.advancePc]
@[simp] theorem advancePc_status : s.advancePc.status = s.status := by simp [State.advancePc]
@[simp] theorem advancePc_rom : s.advancePc.rom = s.rom := by simp [State.advancePc]
@[simp] theorem advancePc_paging : s.advancePc.paging = s.paging := by simp [State.advancePc]
@[simp] theorem advancePc_inputDevice : s.advancePc.inputDevice = s.inputDevice := by simp [State.advancePc]
@[simp] theorem advancePc_events : s.advancePc.events = s.events := by simp [State.advancePc]

/-- Phase 1 increments the PC word (R101). -/
theorem pc_advancePc : s.advancePc.pc = s.pc + 1#16 := pc_setPc s _

/-- and changes no other cell. -/
theorem cell_advancePc {c : Nat} (h : 16 ≤ c) : s.advancePc.cell c = s.cell c := cell_setPc_out s _ h

/-- A step without a ROM word at the PC (R102, R163). -/
theorem coreStep_noFetch (hr : s.status = .running) (hl : s.rom.len ≠ 0) (hf : s.fetch = none) :
    coreStep s = .next (s.advancePc.raiseFault (.fetchOutOfRange s.pc)) := by
  simp [coreStep, hr, hl, hf]

/-- A step whose fetched word `w` phase 3 executes to `u` (R103 to R107). -/
theorem coreStep_fetch {w : Word} {u : State} (hr : s.status = .running) (hf : s.fetch = some w)
    (hx : exec (decode w) s.advancePc = .next u) : coreStep s = .next (u.finishStep s.pc) := by
  have hl : s.rom.len ≠ 0 := by
    have := (read_eq_some.mp hf).1
    omega
  simp [coreStep, hr, hl, hf, runInstr, hx]

/-- Everything a step of the core can do, if it answers a next state. -/
theorem coreStep_cases {t : State} (h : coreStep s = .next t) :
    (s.status ≠ .running ∧ t = s) ∨
    (s.status = .running ∧ s.fetch = none ∧ t = s.advancePc.raiseFault (.fetchOutOfRange s.pc)) ∨
    (∃ w u, s.status = .running ∧ s.fetch = some w ∧ exec (decode w) s.advancePc = .next u ∧
      t = u.finishStep s.pc) := by
  unfold coreStep at h
  split at h
  · rename_i hs; exact .inl ⟨by simp [hs], by cases h; rfl⟩
  · rename_i hs; exact .inl ⟨by simp [hs], by cases h; rfl⟩
  · rename_i hs
    split at h
    · cases h
    · split at h
      · rename_i hf; exact .inr (.inl ⟨hs, hf, by cases h; rfl⟩)
      · rename_i w hf
        unfold runInstr at h
        split at h
        · rename_i u hu; exact .inr (.inr ⟨w, u, hs, hf, hu, by cases h; rfl⟩)
        · cases h
        · cases h

/-- A step of the core never touches the input device. -/
theorem coreStep_inputDevice {t : State} (h : coreStep s = .next t) : t.inputDevice = s.inputDevice := by
  rcases coreStep_cases s h with ⟨-, rfl⟩ | ⟨-, -, rfl⟩ | ⟨w, u, -, -, hx, rfl⟩
  · rfl
  · simp
  · unfold State.finishStep
    have e := (exec_fields hx).2.2.2.1
    split
    · simp [e]
    · split <;> simp [e]

/-- While a request is outstanding, a step of the core leaves it outstanding (R36, R37). -/
theorem coreStep_awaiting {t : State} (h : coreStep s = .next t) (ha : s.awaiting = true) : t.awaiting = true := by
  rcases coreStep_cases s h with ⟨-, rfl⟩ | ⟨-, -, rfl⟩ | ⟨w, u, -, -, hx, rfl⟩
  · exact ha
  · simp [ha]
  · unfold State.finishStep
    have e := (exec_fields hx).1
    split
    · simp [e, ha]
    · split
      · simp [e, ha]
      · rw [service_awaiting]; simp [e, ha]

/-- A step is a step of the core and a step boundary. -/
theorem step_of_coreStep {t : State} (h : coreStep s = .next t) : step s = .next t.deviceTurn := by
  simp [step, cycle, h]

/-- and answers a next state in no other way. -/
theorem step_cases {t : State} (h : step s = .next t) : ∃ u, coreStep s = .next u ∧ t = u.deviceTurn := by
  unfold step cycle at h
  split at h
  · rename_i u hu; exact ⟨u, hu, by cases h; rfl⟩
  · cases h
  · cases h

/-- A run goes on from the next state of its first step. -/
theorem run_next {t : State} (n : Nat) (h : step s = .next t) :
    Host.Core.run Sys2Proof.core (n + 1) s = Host.Core.run Sys2Proof.core n t := by
  have hc : Sys2Proof.core.step s = .next t := h
  simp only [Host.Core.run, hc]

/-- A run of one step or more that ends in a next state takes a first step. -/
theorem run_cases {t : State} (n : Nat) (h : Host.Core.run Sys2Proof.core (n + 1) s = .next t) :
    ∃ u : State, step s = .next u ∧ Host.Core.run Sys2Proof.core n u = .next t := by
  cases hs : step s with
  | next u => exact ⟨u, rfl, by rw [← run_next s n hs]; exact h⟩
  | fault c =>
    have hc : Sys2Proof.core.step s = .fault c := hs
    simp [Host.Core.run, hc] at h
  | refused r =>
    have hc : Sys2Proof.core.step s = .refused r := hs
    simp [Host.Core.run, hc] at h

/-- Phases 4 and 5, by what phase 3 left (R105, R107, R168). -/
theorem finishStep_faulted {c : Fault} (oldPc : Word) (h : s.status = .faulted c) : s.finishStep oldPc = s := by
  simp [State.finishStep, h]

theorem finishStep_halt (oldPc : Word) (hs : s.status = .running) (h : s.pc = oldPc) :
    s.finishStep oldPc = s.halt := by
  simp [State.finishStep, hs, h]

theorem finishStep_service (oldPc : Word) (hs : s.status = .running) (h : s.pc ≠ oldPc) :
    s.finishStep oldPc = s.service := by
  simp [State.finishStep, hs, h]

end Sys2Proof.Machine
end

