-- ==== Sys2Proof/Laws/Encoding.lean ====
section
/-! SUPPORT. The fields of a packed instruction word, and the word packed from its fields. -/

namespace Sys2Proof

/-- Bits 15 to 9 of a packed word are its `A` field (R80). -/
theorem fieldA_packFields (a b : Addr) (op : BitVec 2) : fieldA (packFields a b op) = a := by
  apply BitVec.eq_of_getLsbD_eq
  intro i hi
  simp only [fieldA, packFields, BitVec.getLsbD_extractLsb', BitVec.getLsbD_append]
  simp [hi, show ¬ 9 + i < 2 from by omega, show ¬ 9 + i - 2 < 7 from by omega,
    show 9 + i - 2 - 7 = i from by omega]

/-- Bits 8 to 2 of a packed word are its `B` field (R80). -/
theorem fieldB_packFields (a b : Addr) (op : BitVec 2) : fieldB (packFields a b op) = b := by
  apply BitVec.eq_of_getLsbD_eq
  intro i hi
  simp only [fieldB, packFields, BitVec.getLsbD_extractLsb', BitVec.getLsbD_append]
  simp [hi, show ¬ 2 + i < 2 from by omega]

/-- Bits 1 to 0 of a packed word are its `OP` field (R80). -/
theorem fieldOp_packFields (a b : Addr) (op : BitVec 2) : fieldOp (packFields a b op) = op := by
  apply BitVec.eq_of_getLsbD_eq
  intro i hi
  simp only [fieldOp, packFields, BitVec.getLsbD_extractLsb', BitVec.getLsbD_append]
  simp [hi]

/-- The three fields are the whole word: no bit is left over (R80). -/
theorem packFields_fields (w : Word) : packFields (fieldA w) (fieldB w) (fieldOp w) = w := by
  apply BitVec.eq_of_getLsbD_eq
  intro i hi
  simp only [fieldA, fieldB, fieldOp, packFields, BitVec.getLsbD_extractLsb', BitVec.getLsbD_append]
  by_cases h1 : i < 2
  · simp [h1]
  · by_cases h2 : i - 2 < 7
    · simp [h1, h2]
      congr 1
      omega
    · simp [h1, h2]
      rw [show 9 + (i - 2 - 7) = i from by omega]
      simp [show i - 2 - 7 < 7 from by omega]

/-- `OP` has four values, each an instruction (R82, R87). -/
theorem fieldOp_values (o : BitVec 2) : o = 0#2 ∨ o = 1#2 ∨ o = 2#2 ∨ o = 3#2 := by
  revert o
  decide

end Sys2Proof
end

