-- ==== Sys2Proof/Laws/PerInstr.lean ====
section
/-! SUPPORT. Statements made per instruction, for the host's case split: OpcodeField, that an instruction's word carries its opcode of R82 in bits 1 to 0. -/

/-- The instruction is well formed and bits 1 to 0 of its word are its opcode (R82, R87). -/
def Sys2Proof.Laws.OpcodeField.Statement (i : Sys2Proof.Instr) : Prop :=
  i.wellFormed = true ∧ Sys2Proof.fieldOp (Sys2Proof.encode i) = Sys2Proof.opcodeOf i

theorem Sys2Proof.Laws.OpcodeField.copy (a b : Sys2Proof.Addr) :
    Sys2Proof.Laws.OpcodeField.Statement (.copy a b) := ⟨rfl, Sys2Proof.fieldOp_packFields a b _⟩

theorem Sys2Proof.Laws.OpcodeField.load (a b : Sys2Proof.Addr) :
    Sys2Proof.Laws.OpcodeField.Statement (.load a b) := ⟨rfl, Sys2Proof.fieldOp_packFields a b _⟩

theorem Sys2Proof.Laws.OpcodeField.nand (a b : Sys2Proof.Addr) :
    Sys2Proof.Laws.OpcodeField.Statement (.nand a b) := ⟨rfl, Sys2Proof.fieldOp_packFields a b _⟩

theorem Sys2Proof.Laws.OpcodeField.xor (a b : Sys2Proof.Addr) :
    Sys2Proof.Laws.OpcodeField.Statement (.xor a b) := ⟨rfl, Sys2Proof.fieldOp_packFields a b _⟩
end

