-- ==== Sys2Proof/Tests/Slice0.lean ====
section
/-! SUPPORT. The model's own tests: the checks of WellFormed refuse ill-formed terms; instruction words written out from the spec's encoding decode; vectors of 95_test_vectors.md, one step each; and for every statement with hypotheses a witness that meets them. The tests are elaborated one after the other, not at once: each waits for the kernel, and fifty waiting threads pass the memory limit of the check. -/

namespace Sys2Proof.Tests

set_option Elab.async false

open Sys2Proof Sys2Proof.Machine

/-- An input device that does this at the next boundaries, lets one more pass, and is free after it. -/
def device (turns : List (Option Bool)) : Config.InputDevice := { schedule := turns, wait := 1, draws := 0 }

/-- A core with this ROM, right after construction, PAGING false, whose input device has not completed. -/
def fresh (rom : List Word) : State := State.constructed (Memory.ofWords rom) false (device [])

/-- The same with the PC at `n`, and a ROM of `n + 1` words, 0x0000 but for `w` at the PC. -/
def at_ (n : Nat) (w : Word) : State :=
  { (fresh []).setPc (BitVec.ofNat 16 n) with rom := { len := n + 1, words := [(n, w)] } }

/-- The next state, if there is one. -/
def stateOf (o : Host.Outcome State Fault Refusal) : Option State :=
  match o with
  | .next s => some s
  | .fault _ => none
  | .refused _ => none

/-- What `f` sees in the state after one step. -/
def after {α : Type} (s : State) (f : State → α) : Option α := (stateOf (step s)).map f

/-! ### WellFormed -/

/-- R166: an empty ROM is refused. -/
theorem test_rom_empty_refused : romWellFormed [] = false := by decide
/-- R166: a value that is no 16-bit word is refused. -/
theorem test_rom_too_wide_refused : romWellFormed [0, 65536] = false := by decide
theorem test_rom_accepted : romWellFormed [0, 65535] = true := by decide
/-- R166: an absent input device is refused. -/
theorem test_input_device_absent_refused : devicesWellFormed ⟨[0], false, none, some ⟨⟩⟩ = false := by decide
/-- R166: an absent output device is refused. -/
theorem test_output_device_absent_refused : devicesWellFormed ⟨[0], false, some (device []), none⟩ = false := by decide
theorem test_every_instruction_is_well_formed : (Instr.load 127 127).wellFormed = true := by decide

/-! ### Decoding, words written out as AAAAAAABBBBBBBOO (R80) -/

/-- copy 20, 40 (R120): A = 0010100, B = 0101000, OP = 00. -/
theorem test_decode_copy : decode 0b0010100010100000#16 = .copy 20 40 := by decide
/-- load 7, 20 (R122): A = 0000111, B = 0010100, OP = 01. -/
theorem test_decode_load : decode 0b0000111001010001#16 = .load 7 20 := by decide
/-- nand 19, 19 (R140): A = 0010011, B = 0010011, OP = 10. -/
theorem test_decode_nand : decode 0b0010011001001110#16 = .nand 19 19 := by decide
/-- xor 20, 22 (R141): A = 0010100, B = 0010110, OP = 11. -/
theorem test_decode_xor : decode 0b0010100001011011#16 = .xor 20 22 := by decide
/-- load 127, 20 (95_test_vectors.md L7). -/
theorem test_encode_load : encode (.load 127 20) = 0xFE51#16 := by decide
theorem test_table_word : decodeTableWord 16 0x264E = some (.nand 19 19) := by decide
theorem test_table_word_too_wide : decodeTableWord 32 0x1264E = none := by decide

/-! ### Vectors of 95_test_vectors.md, one step each -/

/-- W2: an overlapping copy reads the whole source first. -/
theorem test_copy_overlap :
    after ((at_ 0 0x2854#16).writeWord 20 0x8001#16) (fun t => (t.readWord 21, t.readWord 20))
      = some (0x8001#16, 0xC000#16) := by decide +kernel
/-- W4: `copy 0, 20` stores oldPc + 1. -/
theorem test_copy_reads_incremented_pc :
    after (at_ 7 0x0050#16) (fun t => (t.readWord 20, t.pc, t.status)) = some (8#16, 8#16, .running) := by
  decide +kernel
/-- L4: with page 1 `load 5, 20` reads index 261. -/
theorem test_load_paged :
    after { (at_ 0 0x0A51#16).setCell 137 true with
        paging := true, rom := ⟨262, [(0, 0x0A51#16), (5, 0x1111#16), (261, 0xBEEF#16)]⟩ }
      (fun t => t.readWord 20) = some 0xBEEF#16 := by decide +kernel
/-- L7: page 511 gives index 0x1FF7F, not truncated; the fault records it. -/
theorem test_load_out_of_range :
    after { (at_ 0 0xFE51#16).writeWord 127 0xFFFF#16 with paging := true }
      (fun t => (t.result, t.pc, t.readWord 20)) = some (.fault (.loadOutOfRange 130943), 1#16, 0#16) := by
  decide +kernel
/-- N4: true NAND true is false. -/
theorem test_nand_true_true :
    after (((at_ 0 0x2856#16).setCell 20 true).setCell 21 true) (fun t => (t.cell 20, t.cell 21))
      = some (true, false) := by decide +kernel
/-- N8: `nand 15, 15` at index 5 sets the PC's low bit and skips index 6. -/
theorem test_nand_into_pc :
    after (at_ 5 0x1E3E#16) (fun t => (t.pc, t.status)) = some (7#16, .running) := by decide +kernel
/-- X3: true XOR false is true. -/
theorem test_xor_true_false :
    after ((at_ 0 0x2857#16).setCell 20 true) (fun t => (t.cell 20, t.cell 21)) = some (true, true) := by
  decide +kernel
/-- X10: `xor 40, 15` at index 4 with cell 40 true halts. -/
theorem test_xor_halts :
    after ((at_ 4 0x503F#16).setCell 40 true) (fun t => (t.pc, t.status)) = some (4#16, .halted) := by
  decide +kernel
/-- C5: the PC wraps at 0xFFFF. -/
theorem test_pc_wraps : after (at_ 0xFFFF 0x2850#16) (fun t => (t.pc, t.result)) = some (0#16, .continued) := by
  decide +kernel
/-- C8: a fetch beyond the ROM faults with the PC incremented. -/
theorem test_fetch_out_of_range :
    after { (at_ 3 0#16) with rom := ⟨3, []⟩ } (fun t => (t.result, t.pc))
      = some (.fault (.fetchOutOfRange 3#16), 4#16) := by decide +kernel
/-- C9: a step after the fault returns it again. -/
theorem test_fault_is_sticky :
    after ((at_ 3 0#16).raiseFault (.fetchOutOfRange 3#16)) (fun t => (t.result, t.pc))
      = some (.fault (.fetchOutOfRange 3#16), 3#16) := by decide +kernel
/-- IO1: `nand 19, 19` sends OUT_BIT once and clears OUT_READY. -/
theorem test_output :
    after ((at_ 0 0x264E#16).setCell 18 true) (fun t => (outputBits t.events, t.outReady, t.outBit))
      = some ([true], false, true) := by decide +kernel
/-- IO3: a halting step sends nothing. -/
theorem test_no_output_on_halt :
    after (((at_ 0 0x1E3F#16).setCell 18 true).setCell 19 true) (fun t => (outputBits t.events, t.outReady))
      = some ([], true) := by decide +kernel
/-- IO5, second step: with a synchronous device `xor 17, 17` makes one request, completed in the same step. -/
theorem test_synchronous_request :
    after { (at_ 0 0x2247#16).setCell 17 true with awaiting := false, inputDevice := device [some true] }
      (fun t => (requestCount t.events, t.inReady, t.inBit, t.awaiting)) = some (2, true, true, false) := by
  decide +kernel
/-- IO6: no second request while one is outstanding. -/
theorem test_no_second_request :
    after (at_ 0 0x2247#16) (fun t => (requestCount t.events, t.inReady, t.awaiting)) = some (1, false, true) := by
  decide +kernel
/-- IO4: a synchronous device completes the construction-time request. -/
theorem test_construction :
    (stateOf (construct ⟨[0x1E3F], false, some (device [some true]), some ⟨⟩⟩)).map
      (fun t => (t.inBit, t.inReady, t.awaiting)) = some (true, true, false) := by decide +kernel
/-- Past its schedule the device waits while a request is outstanding, and then completes with a bit of its choice. -/
theorem test_device_is_free :
    devicePassed (device []) true = ⟨[], 0, 0⟩ ∧ devicePassed (device []) false = device [] ∧
      deviceDue ⟨[], 0, 0⟩ = some (Config.freeBit 0) ∧
      devicePassed ⟨[], 0, 0⟩ true = ⟨[], Config.freeWait 0, 1⟩ := ⟨rfl, rfl, rfl, rfl⟩
/-- R90: `jmp k` needs a stored target. -/
theorem test_jmp_condition :
    (Pseudo.jmp 1).condition 0 (fresh [0#16, 5#16]) = true ∧ (Pseudo.jmp 2).condition 0 (fresh [0#16, 5#16]) = false := by
  decide +kernel
/-- R1 of the vectors: an empty ROM gives no core. -/
theorem test_construction_invalid_rom :
    stateOf (construct ⟨[], false, some (device []), some ⟨⟩⟩) = none := by decide +kernel
/-- P1, with the word placed in the reset state: halts with the PC 0. -/
theorem test_placed_word_runs :
    after (State.reset.withFetchWord 16 0x1E3F) (fun t => (t.pc, t.result)) = some (0#16, .halted) := by
  decide +kernel
/-- P3's first line, assembled. -/
theorem test_assembler :
    (parseLine ['l', 'o', 'a', 'd', ' ', '7', ',', ' ', '2', '0', ' ', ';', 'w']).map assemble = some [0x0E51#16] := by
  decide +kernel
theorem test_assembler_pseudo :
    (parseLine ['s', 'k', 'i', 'p', 'i', 'f', ' ', '0', 'x', '2', '8']).map assemble = some [0x503F#16] := by
  decide +kernel
theorem test_assembler_rejects : parseLine ['n', 'o', 't', ' ', '1', '2', '8'] = none := by decide +kernel

/-! ### Witnesses: for each statement with hypotheses, states and operands that meet them, clause by clause -/

/-- The same ROM with `w` at the PC, PAGING true. -/
def paged (n : Nat) (w : Word) : State := { at_ n w with paging := true }

theorem witness_DecodeOfEncodeIsTheInstruction :
    (Instr.copy 0 127).wellFormed = true ∧ (Instr.xor 127 0).wellFormed = true := by decide

theorem witness_EveryWordIsExactlyOneInstruction : encode (.xor 127 127) = 0xFFFF#16 := by decide

theorem witness_WordReadIsTheBigEndianSum : ∃ (s : State) (a : Nat), a ≤ 128 ∧ a = 128 ∧ s.cell 142 = true :=
  ⟨(fresh []).setCell 142 true, 128, by decide, rfl, by decide +kernel⟩

theorem witness_WordWriteSetsItsSixteenCells : ∃ (s : State) (a k : Nat), a ≤ 127 ∧ a = 127 ∧ k < 16 ∧
    (s.writeWord a 0xFFFF#16).cell (a + k) = true := ⟨fresh [], 127, 15, by decide, rfl, by decide, by decide +kernel⟩

theorem witness_WordWrittenIsReadBack : ∃ (s t : State) (a : Nat) (v : Word), a ≤ 127 ∧ v = 0xFFFF#16 ∧
    ∀ c, inWord a c → t.cell c = (s.writeWord a v).cell c :=
  ⟨fresh [], ((fresh []).writeWord 127 0xFFFF#16).halt, 127, 0xFFFF#16, by decide, rfl, fun _ _ => rfl⟩

theorem witness_LoadWritesTheRomWord :
    (fresh [7]).rom.read ((fresh [7]).effIdx 0) = some 7#16 ∧
      (paged 0 7).rom.read ((paged 0 7).effIdx 0) = some 7#16 := by decide +kernel

theorem witness_EffectiveIndexFollowsPaging : (fresh []).paging = false ∧ (paged 0 0).paging = true := by
  decide +kernel

/-- The last page. -/
def lastPage : State := (paged 0 0).writeWord 127 0xFFFF#16

theorem lastPage_cells (c : Nat) (h1 : 129 ≤ c) (h2 : c ≤ 137) : lastPage.cell c = true := by
  have h := cell_writeWord_in (paged 0 0) (a := 127) (k := c - 127) 0xFFFF#16 (by omega) (by omega)
  rw [show 127 + (c - 127) = c from by omega] at h
  rw [lastPage, h]
  have hk : ∀ k, k < 16 → (0xFFFF#16).getMsbD k = true := by decide
  exact hk _ (by omega)

theorem witness_PagedIndexHasSeventeenBits :
    lastPage.paging = true ∧ (∀ c, 129 ≤ c → c ≤ 137 → lastPage.cell c = true) ∧
    ∃ t : State, t.paging = true ∧ t ≠ lastPage ∧ ∀ c, 129 ≤ c → c ≤ 137 → t.cell c = lastPage.cell c :=
  ⟨rfl, lastPage_cells, lastPage.halt, rfl, fun h => absurd (congrArg State.status h) (by decide +kernel), fun _ _ _ => rfl⟩

theorem witness_PagedLoadOfOperandFive :
    (∃ s : State, s.paging = true ∧ s.pageNumber = 511 ∧ s.rom.read ((s.pageNumber <<< 8) ||| 5) = some 1#16) ∧
    (∃ s : State, s.rom.read 5 = some 2#16 ∧ s.rom.read 261 = some 3#16 ∧ s.cell 137 = true ∧
      ∀ c, 129 ≤ c → c ≤ 136 → s.cell c = false) := by
  refine ⟨⟨{ lastPage with rom := ⟨131072, [(130821, 1)]⟩ }, rfl, by decide +kernel, by decide +kernel⟩,
    ⟨{ (fresh []).setCell 137 true with rom := ⟨262, [(5, 2), (261, 3)]⟩ }, by decide +kernel, by decide +kernel,
      by decide +kernel, fun c h1 h2 => ?_⟩⟩
  exact (cell_setCell_ne (fresh []) (by omega) true).trans (cell_constructed _ _ _ c)

theorem witness_BitInstructionsTouchOnlyTheirCells : ∃ s s' t' : State, s ≠ s' ∧
    s'.cell (20 : Addr).toNat = s.cell (20 : Addr).toNat ∧ s'.cell (21 : Addr).toNat = s.cell (21 : Addr).toNat ∧
    exec (.nand 20 21) s' = .next t' :=
  ⟨fresh [], (fresh []).halt, _, fun h => by simpa [fresh, State.constructed] using congrArg State.status h, rfl, rfl, rfl⟩

theorem witness_BitInstructionsIntoThePc :
    ((15 : Addr).toNat = 15 - 0 ∧ (0 : Addr).toNat = 15 - 15) ∧
    ((at_ 0 0x1E3F#16).status = .running ∧ (at_ 0 0x1E3F#16).fetch = some (encode (.xor 15 15)) ∧
      (at_ 0 0x1E3F#16).pc.toNat % 2 = 0) ∧
    ((at_ 0xFFFF 0x1E3F#16).fetch = some (encode (.xor 15 15)) ∧ (at_ 0xFFFF 0x1E3F#16).pc.toNat % 2 = 1) ∧
    ((at_ 5 0x203F#16).fetch = some (encode (.xor 16 15)) ∧ (at_ 5 0x203F#16).cell 16 = false) ∧
    (((at_ 0xFFFE 0xFE3F#16).setCell 127 true).fetch = some (encode (.xor 127 15)) ∧
      ((at_ 0xFFFE 0xFE3F#16).setCell 127 true).cell 127 = true) := by decide +kernel

theorem witness_StepRunsTheDecodedInstruction :
    ((at_ 0 0x0251#16).status = .running ∧ (at_ 0 0x0251#16).rom.read (at_ 0 0x0251#16).pc.toNat = some 0x0251#16 ∧
      (stateOf (exec (decode 0x0251#16) (at_ 0 0x0251#16).advancePc)).map State.status
        = some (.faulted (.loadOutOfRange 1))) ∧
    ((stateOf (exec (decode 0x1E3F#16) (at_ 0 0x1E3F#16).advancePc)).map (fun u => (u.status, u.pc))
        = some (.running, (at_ 0 0x1E3F#16).pc)) ∧
    ((stateOf (exec (decode 0x2850#16) (at_ 0 0x2850#16).advancePc)).map (fun u => (u.status, u.pc))
        = some (.running, 1#16)) := by decide +kernel

theorem witness_CoreStepRefinesTheSpecsStep : (at_ 0 0x2850#16).rom.len ≠ 0 := by decide +kernel

theorem witness_PhaseOneIncrementsThePc : (at_ 0 0).pc ≠ 0xFFFF#16 ∧ (at_ 0xFFFF 0).pc = 0xFFFF#16 := by
  decide +kernel

theorem witness_InstructionsReadTheIncrementedPc :
    (at_ 0 0).status = .running ∧ (at_ 0 0).fetch = some (encode (.copy 0 0)) ∧
      (at_ 0xFFFF 0).fetch = some (encode (.copy 0 0)) := by decide +kernel

theorem witness_StepHaltsWhenThePcIsBack :
    (∃ u, (at_ 0 0x1E3F#16).phase3 = some u ∧ u.status = .running ∧ u.pc = (at_ 0 0x1E3F#16).pc) ∧
    (∃ u, (at_ 0 0x2850#16).phase3 = some u ∧ u.status = .running ∧ u.pc ≠ (at_ 0 0x2850#16).pc) :=
  ⟨⟨_, rfl, rfl, by decide +kernel⟩, ⟨_, rfl, rfl, by decide +kernel⟩⟩

theorem witness_StepsOffThePcAdvanceByOne :
    ((at_ 0 0x2850#16).status = .running ∧ (at_ 0 0x2850#16).fetch = some 0x2850#16 ∧
      16 ≤ (destination (decode 0x2850#16)).toNat ∧
      ∀ a b, decode 0x2850#16 = .load a b → (at_ 0 0x2850#16).effIdx a < (at_ 0 0x2850#16).rom.len) ∧
    ((at_ 0 0x0041#16).fetch = some 0x0041#16 ∧ (destination (decode 0x0041#16)).toNat = 16 ∧
      ∀ a b, decode 0x0041#16 = .load a b → (at_ 0 0x0041#16).effIdx a < (at_ 0 0x0041#16).rom.len) := by
  refine ⟨⟨by decide +kernel, by decide +kernel, by decide, fun a b h => ?_⟩,
    by decide +kernel, by decide, fun a b h => ?_⟩
  · have h2 : decode 0x2850#16 = .copy 20 20 := by decide
    rw [h2] at h
    cases h
  · have h2 : decode 0x0041#16 = .load 0 16 := by decide
    rw [h2] at h
    cases h
    decide +kernel

theorem witness_JumpsByCopyAndLoad :
    ((at_ 0 0x2000#16).status = .running ∧ 16 ≤ (16 : Addr).toNat ∧
      (at_ 0 0x2000#16).fetch = some (encode (.copy 16 0)) ∧ (at_ 0 0x2000#16).readWord 16 = (at_ 0 0x2000#16).pc) ∧
    ((at_ 3 0xFE00#16).fetch = some (encode (.copy 127 0)) ∧ (at_ 3 0xFE00#16).readWord 127 ≠ (at_ 3 0xFE00#16).pc) ∧
    ((at_ 1 0x0201#16).fetch = some (encode (.load 1 0)) ∧
      (at_ 1 0x0201#16).rom.read ((at_ 1 0x0201#16).effIdx 1) = some 0x0201#16) := by decide +kernel

theorem witness_CopyOntoItselfOnlyAdvancesThePc :
    ((at_ 0 0x2040#16).status = .running ∧ (at_ 0 0x2040#16).fetch = some (encode (.copy 16 16)) ∧
      (at_ 0 0x2040#16).outReady = false ∧ (at_ 0 0x2040#16).awaiting = true ∧
      ∀ v, deviceDue (at_ 0 0x2040#16).inputDevice ≠ some v) ∧
    (∃ s : State, s.status = .running ∧ s.fetch = some (encode (.copy 127 127)) ∧ s.outReady = false ∧
      s.inReady = true ∧ s.awaiting = false) :=
  ⟨by decide +kernel, { (at_ 0 0xFFFC#16).setCell 17 true with awaiting := false }, by decide +kernel⟩

theorem witness_EveryStepAnswers :
    (at_ 0 0).rom.len ≠ 0 ∧ (fresh []).halt.status ≠ .running ∧ (fresh []).rom.len = 0 ∧
      (fresh []).status = .running := by decide +kernel

theorem witness_FetchBeyondTheRomFaults :
    (∃ s : State, s.status = .running ∧ s.rom.len ≠ 0 ∧ s.rom.len = s.pc.toNat) ∧
    (∃ s t : State, exec (.xor 20 20) s = .next t ∧ t.status = .faulted (.fetchOutOfRange 1#16)) :=
  ⟨⟨{ at_ 3 0 with rom := ⟨3, []⟩ }, by decide +kernel⟩,
    ⟨(fresh []).raiseFault (.fetchOutOfRange 1#16), _, rfl, rfl⟩⟩

theorem witness_LoadBeyondTheRomFaults :
    ((at_ 0 0x0251#16).status = .running ∧ (at_ 0 0x0251#16).fetch = some 0x0251#16 ∧
      decode 0x0251#16 = .load 1 20 ∧ (at_ 0 0x0251#16).rom.len = (at_ 0 0x0251#16).effIdx 1) ∧
    (∃ t : State, step (at_ 0 0x0251#16) = .next t ∧ t.status = .faulted (.loadOutOfRange 1)) :=
  ⟨by decide +kernel, _, rfl, by decide +kernel⟩

theorem witness_TerminalStatesAreNeverLeft :
    ((fresh []).halt.status ≠ .running ∧ ((fresh []).raiseFault (.loadOutOfRange 9)).status ≠ .running) ∧
    (∃ s : State, s.status ≠ .running ∧ s.awaiting = false) ∧
    (∃ s : State, s.status ≠ .running ∧ s.awaiting = true ∧ deviceDue s.inputDevice = some true) :=
  ⟨by decide +kernel, ⟨{ (fresh []).halt with awaiting := false }, by decide +kernel⟩,
    ⟨{ (fresh []).halt with inputDevice := device [some true] }, by decide +kernel⟩⟩

/-- A halting instruction with OUT_READY set. -/
def haltsFull : State := (at_ 0 0x1E3F#16).setCell 19 true

theorem witness_HaltingStepNeverSends : ∃ u t, haltsFull.status = .running ∧ haltsFull.phase3 = some u ∧
    step haltsFull = .next t ∧ t.status = .halted ∧ u.cell 19 = true :=
  ⟨_, _, rfl, rfl, rfl, by decide +kernel, by decide +kernel⟩

theorem witness_OutputServiceSendsOutBit : ∃ u, (at_ 0 0x264E#16).status = .running ∧
    (at_ 0 0x264E#16).phase3 = some u ∧ u.status = .running ∧ u.pc ≠ (at_ 0 0x264E#16).pc ∧ u.cell 19 = true :=
  ⟨_, rfl, rfl, rfl, by decide +kernel, by decide +kernel⟩

/-- `xor 17, 17` with an unconsumed input bit and no request outstanding. -/
def consumes : State :=
  { (at_ 0 0x2247#16).setCell 17 true with awaiting := false, inputDevice := device [some true] }

theorem witness_InputServiceIssuesOneRequest : ∃ u, consumes.status = .running ∧ consumes.phase3 = some u ∧
    u.status = .running ∧ u.pc ≠ consumes.pc ∧ u.cell 17 = false ∧ consumes.awaiting = false :=
  ⟨_, rfl, rfl, rfl, by decide +kernel, by decide +kernel, rfl⟩

theorem witness_InputCompletionDeliversTheBit :
    (∃ s : State, deviceDue s.inputDevice = some true ∧ s.awaiting = true) ∧
    (∃ s : State, deviceDue s.inputDevice = some true ∧ s.awaiting = false) :=
  ⟨⟨{ fresh [] with inputDevice := device [some true] }, rfl, rfl⟩, ⟨consumes, rfl, rfl⟩⟩

/-- A program that loops for ever, a request outstanding: `copy 20, 20` at 0, `load 2, 0` at 1 with ROM[2] = 0. -/
def looping : State := fresh [0x2850#16, 0x0401#16, 0#16]

theorem witness_EveryRequestIsCompleted : (looping.awaiting = true ∧ looping.rom.len ≠ 0) ∧
    (looping.halt.awaiting = true ∧ looping.halt.status ≠ .running) := by decide +kernel

theorem witness_EveryRunIsWeaklyFair : looping.rom.len ≠ 0 ∧
    ∃ t, Host.Core.run Sys2Proof.core 1 looping = .next t ∧ t.awaiting = true ∧ t.status = .running :=
  ⟨by decide +kernel, _, rfl, by decide +kernel, by decide +kernel⟩

theorem witness_SynchronousInputDevice :
    (∃ (c : Config.Construction) (d : Config.InputDevice) (o : Config.OutputDevice), romWellFormed c.rom = true ∧
      c.input = some d ∧ deviceDue d = some true ∧ c.output = some o) ∧
    (∃ u, consumes.status = .running ∧ consumes.awaiting = false ∧ consumes.phase3 = some u ∧ u.status = .running ∧
      u.pc ≠ consumes.pc ∧ u.inReady = false ∧ deviceDue consumes.inputDevice = some true) :=
  ⟨⟨⟨[0x1E3F], false, some (device [some true]), some ⟨⟩⟩, device [some true], ⟨⟩, by decide, rfl, rfl, rfl⟩,
    ⟨_, rfl, rfl, rfl, rfl, by decide +kernel, by decide +kernel, rfl⟩⟩

theorem witness_InputChannelFollowsItsTable : ∃ s : State, s.channel = .consumed ∧
    s.service.channel = .awaitingRead ∧ s.channel ≠ .awaitingRead :=
  ⟨{ fresh [] with awaiting := false }, by decide +kernel⟩

theorem witness_SettingOutReadySendsAtOnce : (at_ 0 0x264E#16).status = .running ∧
    (at_ 0 0x264E#16).fetch = some (encode (.nand 19 19)) ∧ (at_ 0 0x264E#16).outReady = false := by decide +kernel

theorem witness_OneCopyOverBothOutputCells :
    ((at_ 0 0x2040#16).status = .running ∧ (at_ 0 0x2040#16).fetch = some (encode (.copy 16 16))) ∧
    ((at_ 0 0xFE48#16).status = .running ∧ (at_ 0 0xFE48#16).fetch = some (encode (.copy 127 18)) ∧
      (18 : Addr).toNat ≤ 18) := by decide +kernel

theorem witness_StepMakesAtMostOneCallOfEachKind : ∃ t, step consumes = .next t ∧ requestCount t.events = 2 :=
  ⟨_, rfl, by decide +kernel⟩

theorem witness_CoreStepIgnoresTheInputDevice : ∃ t, coreStep (at_ 0 0x2850#16) = .next t := ⟨_, rfl⟩

theorem witness_ConstructionReachesTheResetState :
    (∃ (c : Config.Construction) (d : Config.InputDevice) (o : Config.OutputDevice), romWellFormed c.rom = true ∧
      c.input = some d ∧ c.output = some o ∧ deviceDue d = some true) ∧
    (∃ (c : Config.Construction) (d : Config.InputDevice) (o : Config.OutputDevice), romWellFormed c.rom = true ∧
      c.input = some d ∧ c.output = some o ∧ ∀ v, deviceDue d ≠ some v) :=
  ⟨⟨⟨[0xFFFF], true, some (device [some true]), some ⟨⟩⟩, device [some true], ⟨⟩, by decide, rfl, rfl, rfl⟩,
    ⟨⟨[0], false, some (device [none]), some ⟨⟩⟩, device [none], ⟨⟩, by decide, rfl, rfl, by decide⟩⟩

theorem witness_ConstructionRefusesBadConfigurations :
    (∃ c : Config.Construction, c.rom = [] ∧ devicesWellFormed c = true) ∧
    (∃ c : Config.Construction, (∃ v ∈ c.rom, 65536 ≤ v) ∧ devicesWellFormed c = true) ∧
    (∃ c : Config.Construction, c.input = none ∧ romWellFormed c.rom = true) ∧
    (∃ c : Config.Construction, c.output = none ∧ romWellFormed c.rom = true) :=
  ⟨⟨⟨[], false, some (device []), some ⟨⟩⟩, by decide⟩, ⟨⟨[65536], false, some (device []), some ⟨⟩⟩, by decide⟩,
    ⟨⟨[0], false, none, some ⟨⟩⟩, by decide⟩, ⟨⟨[0], false, some (device []), none⟩, by decide⟩⟩

theorem witness_PlacedWordIsFetchedNext :
    (at_ 3 1#16).rom.wf = true ∧ State.reset.rom.wf = true ∧ decodeTableWord 16 0xFFFF = some (.xor 127 127) ∧
      (0 : Nat) ≠ (at_ 3 1#16).pc.toNat ∧ 0 < (at_ 3 1#16).rom.len := by decide +kernel

theorem witness_ConstructedStatesMeetTheInvariant : ∃ c s, construct c = .next s :=
  ⟨⟨[0x1E3F], false, some (device []), some ⟨⟩⟩, _, rfl⟩

theorem fresh_inv (rom : List Word) : (fresh rom).Inv :=
  { romWf := ofWords_wf rom
    handshake := rfl
    sent := fun _ => cell_constructed _ _ _ 19
    asked := fun _ h => by cases h }

theorem witness_StepKeepsTheInvariant : (fresh [0x264E#16]).Inv ∧ ∃ t, step (fresh [0x264E#16]) = .next t :=
  ⟨fresh_inv _, _, rfl⟩

theorem witness_ConfigurationNeverChanges : ∃ t : State,
    Host.Core.run Sys2Proof.core 2 (fresh [0x2850#16, 0x1E3F#16]) = .next t := ⟨_, rfl⟩

theorem witness_PagingActsOnlyThroughLoadsIndex :
    (∀ w a b, (at_ 0 0x2850#16).fetch = some w → decode w = .load a b →
      ({ at_ 0 0x2850#16 with paging := true } : State).effIdx a = (at_ 0 0x2850#16).effIdx a) ∧
    ∃ t, step (at_ 0 0x2850#16) = .next t := by
  refine ⟨fun w a b hf hd => ?_, _, rfl⟩
  have h : (at_ 0 0x2850#16).fetch = some 0x2850#16 := by decide +kernel
  rw [h] at hf
  cases hf
  rw [show decode 0x2850#16 = Instr.copy 20 20 by decide] at hd
  cases hd

theorem witness_HiddenCellsMatterOnlyToPaging : ∃ s s' t : State, s.SameBut s' (fun c => 128 ≤ c) ∧
    s.cell 137 ≠ s'.cell 137 ∧ s.paging = false ∧
    (∀ w a b, s.fetch = some w → decode w = .copy a b → a.toNat ≤ 112) ∧ step s = .next t := by
  refine ⟨at_ 0 0xE050#16, (at_ 0 0xE050#16).setCell 137 true, _,
    ⟨fun c hc => cell_setCell_ne _ (by omega) _, rfl, rfl, rfl, rfl, rfl, rfl⟩, by decide +kernel, rfl,
    fun w a b hf hd => ?_, rfl⟩
  have h : (at_ 0 0xE050#16).fetch = some 0xE050#16 := by decide +kernel
  rw [h] at hf
  cases hf
  rw [show decode 0xE050#16 = Instr.copy 112 20 by decide] at hd
  cases hd
  decide

theorem witness_PseudoInstructionsHaveTheirEffects :
    (Pseudo.mov1 20 21).condition 0 (fresh [9#16]) = true ∧ (Pseudo.jmp 0).condition 0 (fresh [9#16]) = true ∧
      (Pseudo.jmp 1).condition 0 (fresh [9#16]) = false := by decide +kernel

theorem witness_HaltAndSkipifUnderTheirConditions :
    ((at_ 4 0x1E3F#16).status = .running ∧ (at_ 4 0x1E3F#16).fetch = some (encode (.xor 15 15)) ∧
      Pseudo.halt.expand = [.xor 15 15] ∧ Pseudo.halt.condition (at_ 4 0x1E3F#16).pc.toNat (at_ 4 0x1E3F#16) = true) ∧
    ((at_ 0xFFFF 0x203F#16).status = .running ∧ (at_ 0xFFFF 0x203F#16).fetch = some (encode (.xor 16 15)) ∧
      (Pseudo.skipif 16).expand = [.xor 16 15] ∧
      (Pseudo.skipif 16).condition (at_ 0xFFFF 0x203F#16).pc.toNat (at_ 0xFFFF 0x203F#16) = true) := by decide +kernel

theorem witness_RomFileIsBigEndian : romWordsOfBytes [0x1E#8, 0x3F#8] = some [0x1E3F#16] ∧
    romWordsOfBytes [0x1E#8] = none := by decide

theorem witness_OutputBitsPackMostSignificantFirst :
    packedBytes [true, false, false, false, false, false, false, true, true] = [0x81#8] := by decide

end Sys2Proof.Tests
end

/-! PROOFS. Word reads and writes of the register file (20_memory.md R52, R53, R56). -/

namespace Sys2Proof.Machine

/-- The value of `n` cells is their sum by places, below the bits already read. -/
theorem bitsValue_eq_sum (cells : List Bool) (acc n : Nat) :
    bitsValue acc n cells =
      acc <<< n + ((List.range n).map fun k => (cells.getD k false).toNat <<< (n - 1 - k)).sum := by
  induction cells generalizing acc n with
  | nil => simp [bitsValue]
  | cons b rest ih =>
    cases n with
    | zero => simp [bitsValue]
    | succ n =>
      rw [bitsValue, ih, List.range_succ_eq_map]
      simp [Function.comp_def, Nat.shiftLeft_eq, Nat.sub_sub, Nat.add_comm 1]
      ring

/-- `n` cells, with no bits read before them, have a value of `n` bits. -/
theorem bitsValue_zero_lt (cells : List Bool) (n : Nat) : bitsValue 0 n cells < 2 ^ n :=
  Nat.lt_pow_two_of_testBit _ fun j hj => by rw [testBit_bitsValue, if_neg (by omega), Nat.zero_testBit]

/-- A word read is the sum of R52, at every address: past cell 142 a cell counts 0 (R22). -/
theorem toNat_readWord (s : State) (a : Nat) :
    (s.readWord a).toNat = ((List.range 16).map fun k => (s.cell (a + k)).toNat <<< (15 - k)).sum := by
  have hcell : ∀ k, (s.regs.toList.drop a).getD k false = s.cell (a + k) := fun k => by
    simp [State.cell, cellAt, List.getD_eq_getElem?_getD]
  rw [State.readWord, BitVec.toNat_ofNat, Nat.mod_eq_of_lt (bitsValue_zero_lt _ 16), bitsValue_eq_sum]
  simp only [hcell, Nat.zero_shiftLeft, Nat.zero_add, Nat.reduceSub]

/-- Settles O5: the sum holds at every address, and bit 0 of `word(128)` is the virtual cell 143. -/
theorem wordReadIsTheBigEndianSum : Obligations.WordReadIsTheBigEndianSum := by
  intro s a _
  refine ⟨toNat_readWord s a, ?_⟩
  rw [getLsbD_readWord s 128 (by omega), cell_beyond s (by omega)]

/-- After `word(a) <- v` cell `a + k` holds bit `15 - k` of `v` (R53). -/
theorem cell_writeWord_getLsbD (s : State) {a k : Nat} (v : Word) (ha : a ≤ 127) (hk : k ≤ 15) :
    (s.writeWord a v).cell (a + k) = v.getLsbD (15 - k) := by
  rw [cell_writeWord_in s v (by omega) (by omega), BitVec.getMsbD]
  simp; omega

/-- A word written is read back, wherever it lies inside the register file (R54, R56). -/
theorem readWord_writeWord_self (s : State) {a : Nat} (v : Word) (ha : a ≤ 127) :
    (s.writeWord a v).readWord a = v :=
  word_ext fun k hk => by rw [getMsbD_readWord _ _ hk, cell_writeWord_in s v hk (by omega)]

/-- Two states that agree on the cells of a word read the same word. -/
theorem readWord_congr_inWord {s t : State} {a : Nat} (h : ∀ c, inWord a c → t.cell c = s.cell c) :
    t.readWord a = s.readWord a :=
  readWord_congr fun k hk => h (a + k) ⟨by omega, by omega⟩

/-- Settles O7, from what a word write does to its cells and what a word read sees. -/
theorem wordWrittenIsReadBack : Obligations.WordWrittenIsReadBack := by
  intro s a v ha
  refine ⟨fun k hk => cell_writeWord_getLsbD s v ha hk, readWord_writeWord_self s v ha, fun t ht => ?_⟩
  rw [readWord_congr_inWord ht, readWord_writeWord_self s v ha]

end Sys2Proof.Machine

/-! PROOFS. PAGING (20_memory.md R63): no step changes it, and each phase of a step commutes with giving it another value, a
`load` where its effective index stays the same. -/

namespace Sys2Proof.Machine

/-- The same state with another value of PAGING. -/
def State.withPaging (s : State) (p : Bool) : State := { s with paging := p }

section
variable (s : State) (p : Bool)

@[simp] theorem withPaging_awaiting : (s.withPaging p).awaiting = s.awaiting := rfl
@[simp] theorem withPaging_status : (s.withPaging p).status = s.status := rfl
@[simp] theorem withPaging_rom : (s.withPaging p).rom = s.rom := rfl
@[simp] theorem withPaging_inputDevice : (s.withPaging p).inputDevice = s.inputDevice := rfl
@[simp] theorem withPaging_pc : (s.withPaging p).pc = s.pc := rfl

theorem putWord_withPaging (b : Addr) (v : Word) : (s.withPaging p).putWord b v = (s.putWord b v).withPaging p := rfl
theorem putBit_withPaging (b : Addr) (v : Bool) : (s.withPaging p).putBit b v = (s.putBit b v).withPaging p := rfl
theorem advancePc_withPaging : (s.withPaging p).advancePc = s.advancePc.withPaging p := rfl
theorem raiseFault_withPaging (c : Fault) : (s.withPaging p).raiseFault c = (s.raiseFault c).withPaging p := rfl
theorem halt_withPaging : (s.withPaging p).halt = s.halt.withPaging p := rfl
theorem deviceMoved_withPaging : (s.withPaging p).deviceMoved = s.deviceMoved.withPaging p := rfl
theorem complete_withPaging (v : Bool) : (s.withPaging p).complete v = (s.complete v).withPaging p := rfl

theorem outputService_withPaging : (s.withPaging p).outputService = s.outputService.withPaging p := by
  unfold State.outputService
  rw [apply_ite (State.withPaging · p)]
  rfl

theorem inputService_withPaging : (s.withPaging p).inputService = s.inputService.withPaging p := by
  unfold State.inputService
  rw [apply_ite (State.withPaging · p)]
  rfl

theorem service_withPaging : (s.withPaging p).service = s.service.withPaging p := by
  rw [State.service, outputService_withPaging, inputService_withPaging, State.service]

theorem deviceTurn_withPaging : (s.withPaging p).deviceTurn = s.deviceTurn.withPaging p := by
  cases hd : deviceDue s.inputDevice with
  | none => simp [State.deviceTurn, hd, deviceMoved_withPaging]
  | some v =>
    cases ha : s.awaiting <;> simp [State.deviceTurn, hd, ha, deviceMoved_withPaging, complete_withPaging]

theorem finishStep_withPaging (oldPc : Word) :
    (s.withPaging p).finishStep oldPc = (s.finishStep oldPc).withPaging p := by
  unfold State.finishStep
  simp only [withPaging_status, withPaging_pc]
  split
  · rfl
  · by_cases hpc : s.pc = oldPc
    · simp [hpc, halt_withPaging]
    · simp [hpc, service_withPaging]

end

/-- An instruction with another value of PAGING, which gives it the same effective index if it is a `load`, does the same. -/
theorem exec_withPaging {i : Instr} {s t : State} {p : Bool}
    (hidx : ∀ a b, i = .load a b → (s.withPaging p).effIdx a = s.effIdx a) (h : exec i s = .next t) :
    exec i (s.withPaging p) = .next (t.withPaging p) := by
  obtain ⟨a, b, rfl, rfl⟩ | ⟨a, b, v, rfl, hr, rfl⟩ | ⟨a, b, rfl, hr, rfl⟩ | ⟨a, b, rfl, rfl⟩ | ⟨a, b, rfl, rfl⟩ :=
    exec_cases h
  · rfl
  · rw [← putWord_withPaging]
    exact execLoad_some (by rw [hidx a b rfl, withPaging_rom, hr])
  · rw [← raiseFault_withPaging, ← hidx a b rfl]
    exact execLoad_none (by rw [hidx a b rfl, withPaging_rom, hr])
  · rfl
  · rfl

/-- A step of a halted or faulted core changes nothing (R100). -/
theorem coreStep_stopped {s : State} (h : s.status ≠ .running) : coreStep s = .next s := by
  cases hs : s.status with
  | running => exact absurd hs h
  | halted => simp [coreStep, hs]
  | faulted c => simp [coreStep, hs]

/-- A running core that steps holds a ROM (R166). -/
theorem rom_len_ne_zero_of_coreStep {s t : State} (hr : s.status = .running) (h : coreStep s = .next t) :
    s.rom.len ≠ 0 := by
  intro hl
  simp [coreStep, hr, hl] at h

/-- Phase 1 leaves every effective index as it is: the page lies past the PC cells (R23, R61). -/
theorem effIdx_advancePc (s : State) (a : Addr) : s.advancePc.effIdx a = s.effIdx a :=
  effIdx_congr (advancePc_paging s) (fun _ hc => cell_advancePc s (by omega)) a

/-- A step of the core with another value of PAGING that gives a fetched `load` the same effective index is the same step. -/
theorem coreStep_withPaging {s t : State} {p : Bool}
    (hidx : ∀ w a b, s.fetch = some w → decode w = .load a b → (s.withPaging p).effIdx a = s.effIdx a)
    (h : coreStep s = .next t) : coreStep (s.withPaging p) = .next (t.withPaging p) := by
  rcases coreStep_cases s h with ⟨hs, rfl⟩ | ⟨hr, hf, rfl⟩ | ⟨w, u, hr, hf, hx, rfl⟩
  · exact coreStep_stopped hs
  · have hl : s.rom.len ≠ 0 := rom_len_ne_zero_of_coreStep hr h
    exact coreStep_noFetch (s.withPaging p) hr hl hf
  · have hload : ∀ a b, decode w = .load a b → (s.advancePc.withPaging p).effIdx a = s.advancePc.effIdx a :=
      fun a b hd => by
        rw [← advancePc_withPaging, effIdx_advancePc, effIdx_advancePc, hidx w a b hf hd]
    rw [← finishStep_withPaging]
    exact coreStep_fetch (s.withPaging p) hr hf (exec_withPaging hload hx)

/-- A step with another value of PAGING that gives a fetched `load` the same effective index is the same step. -/
theorem step_withPaging {s t : State} {p : Bool}
    (hidx : ∀ w a b, s.fetch = some w → decode w = .load a b → (s.withPaging p).effIdx a = s.effIdx a)
    (h : step s = .next t) : step (s.withPaging p) = .next (t.withPaging p) := by
  obtain ⟨u, hu, rfl⟩ := step_cases s h
  rw [← deviceTurn_withPaging]
  exact step_of_coreStep _ (coreStep_withPaging hidx hu)

@[simp] theorem finishStep_paging (s : State) (oldPc : Word) : (s.finishStep oldPc).paging = s.paging := by
  unfold State.finishStep
  split
  · rfl
  · split <;> simp

/-- No step changes PAGING (R8, R63). -/
theorem step_paging {s t : State} (h : step s = .next t) : t.paging = s.paging := by
  obtain ⟨u, hu, rfl⟩ := step_cases s h
  rw [deviceTurn_paging]
  rcases coreStep_cases s hu with ⟨-, rfl⟩ | ⟨-, -, rfl⟩ | ⟨w, v, -, -, hx, rfl⟩
  · rfl
  · simp
  · obtain ⟨-, -, hpaging, -, -⟩ := exec_fields hx
    simp [hpaging]

/-- Settles O47: PAGING is kept by a step, and a step with the other value of PAGING is the same step. -/
theorem pagingActsOnlyThroughLoadsIndex : Obligations.PagingActsOnlyThroughLoadsIndex :=
  fun _ _ _ hidx h => ⟨step_paging h, step_withPaging hidx h⟩

end Sys2Proof.Machine

/-! PROOFS. The instruction word as arithmetic on its fields (30_encoding.md R80). -/

namespace Sys2Proof

/-- The pattern `AAAAAAABBBBBBBOO` as a number: the fields shifted to bits 9, 2 and 0 and joined (R80). -/
theorem toNat_packFields (a b : Addr) (op : BitVec 2) :
    (packFields a b op).toNat = (a.toNat <<< 9) ||| (b.toNat <<< 2) ||| op.toNat := by
  rw [packFields, BitVec.toNat_append, BitVec.toNat_append, Nat.shiftLeft_or_distrib, ← Nat.shiftLeft_add]

/-- `A` is what stands above bit 8: the word has 16 bits, so no mask is needed (R80). -/
theorem toNat_fieldA (w : Word) : (fieldA w).toNat = w.toNat >>> 9 := by
  have hlt : w.toNat >>> 9 < 2 ^ 7 := by
    rw [Nat.shiftRight_eq_div_pow]
    exact Nat.div_lt_of_lt_mul w.isLt
  rw [fieldA, BitVec.extractLsb'_toNat, Nat.mod_eq_of_lt hlt]

/-- `B` is the seven bits from bit 2 up, under a mask (R80). -/
theorem toNat_fieldB (w : Word) : (fieldB w).toNat = (w.toNat >>> 2) &&& 0x7F := by
  rw [fieldB, BitVec.extractLsb'_toNat]
  exact (Nat.and_two_pow_sub_one_eq_mod _ 7).symm

/-- `OP` is the two lowest bits, under a mask (R80). -/
theorem toNat_fieldOp (w : Word) : (fieldOp w).toNat = w.toNat &&& 0x3 := by
  rw [fieldOp, BitVec.extractLsb'_toNat, Nat.shiftRight_zero]
  exact (Nat.and_two_pow_sub_one_eq_mod _ 2).symm

end Sys2Proof

namespace Sys2Proof.Machine

/-- Settles O2: each instruction's word is its packed fields with its opcode of R82, and each field read is its bit range. -/
theorem encodingIsTheFieldFormula : Obligations.EncodingIsTheFieldFormula := by
  refine ⟨fun a b => ⟨?copy, ?load, ?nand, ?xor⟩, fun w => ⟨toNat_fieldA w, toNat_fieldB w, toNat_fieldOp w⟩⟩
  case copy => exact toNat_packFields a b 0#2
  case load => exact toNat_packFields a b 1#2
  case nand => exact toNat_packFields a b 2#2
  case xor => exact toNat_packFields a b 3#2

end Sys2Proof.Machine

/-! PROOFS. The halt (40_cycle.md R105): what phase 3 of a step leaves, and the step that goes on from it. -/

namespace Sys2Proof.Machine

/-- Phase 3 leaves a state exactly where a word is fetched and its instruction answers that state (R102, R103). -/
theorem phase3_eq_some {s u : State} :
    s.phase3 = some u ↔ ∃ w, s.fetch = some w ∧ exec (decode w) s.advancePc = .next u := by
  unfold State.phase3
  cases hf : s.fetch with
  | none => simp
  | some w => cases hx : exec (decode w) s.advancePc <;> simp [hx]

/-- A step goes on from what phase 3 left through phases 4 and 5 to the step boundary (R105, R107, R112). -/
theorem step_of_phase3 {s u : State} (hr : s.status = .running) (h : s.phase3 = some u) :
    step s = .next (u.finishStep s.pc).deviceTurn := by
  obtain ⟨w, hf, hx⟩ := phase3_eq_some.mp h
  exact step_of_coreStep s (coreStep_fetch s hr hf hx)

/-- Up to phase 3 a step requests no input and completes none (R36). -/
theorem phase3_awaiting {s u : State} (h : s.phase3 = some u) : u.awaiting = s.awaiting := by
  obtain ⟨w, -, hx⟩ := phase3_eq_some.mp h
  obtain ⟨hawaiting, -, -, -, -⟩ := exec_fields hx
  rw [hawaiting, advancePc_awaiting]

/-- Up to phase 3 a step has no event at the interface (R185). -/
theorem phase3_events {s u : State} (h : s.phase3 = some u) : u.events = s.events := by
  obtain ⟨w, -, hx⟩ := phase3_eq_some.mp h
  obtain ⟨-, -, -, -, hevents⟩ := exec_fields hx
  rw [hevents, advancePc_events]

/-- Settles O22: `t` is what phases 4 and 5 make of `u`, its halt where the PC is back and its service phase elsewhere. -/
theorem stepHaltsWhenThePcIsBack : Obligations.StepHaltsWhenThePcIsBack := by
  intro s u hs hu hrun
  refine ⟨u.finishStep s.pc, step_of_phase3 hs hu, fun hback => ?halts, fun hmoved => ?goesOn⟩
  case halts =>
    rw [finishStep_halt u s.pc hrun hback]
    exact ⟨halt_status u, halt_cell u, (halt_events u).trans (phase3_events hu),
      (halt_awaiting u).trans (phase3_awaiting hu)⟩
  case goesOn =>
    rw [finishStep_service u s.pc hrun hmoved, service_status, hrun]

end Sys2Proof.Machine

/-! PROOFS. The bit instructions (42_bit_ops.md R140 to R142): a gate of two cells, whose result goes to one of them. -/

namespace Sys2Proof.Machine

theorem exec_nand (a b : Addr) (s : State) :
    exec (.nand a b) s = .next (s.putBit b (nandGate (s.cell a.toNat) (s.cell b.toNat))) := rfl

theorem exec_xor (a b : Addr) (s : State) :
    exec (.xor a b) s = .next (s.putBit b (xorGate (s.cell a.toNat) (s.cell b.toNat))) := rfl

/-- A bit instruction is one gate, the same in every state, of cells `A` and `B` into cell `B` (R140, R141). -/
theorem exec_bitInstruction {a b : Addr} {i : Instr} (hi : i = .nand a b ∨ i = .xor a b) :
    ∃ gate : Bool → Bool → Bool, ∀ s : State,
      exec i s = .next (s.putBit b (gate (s.cell a.toNat) (s.cell b.toNat))) := by
  obtain rfl | rfl := hi
  · exact ⟨nandGate, exec_nand a b⟩
  · exact ⟨xorGate, exec_xor a b⟩

theorem cell_putBit_self (s : State) (b : Addr) (v : Bool) : (s.putBit b v).cell b.toNat = v := by
  rw [cell_putBit, if_pos rfl]

/-- A bit result leaves all of the state but its own cell (R51). -/
theorem sameBut_putBit (s : State) (b : Addr) (v : Bool) : s.SameBut (s.putBit b v) (fun c => c = b.toNat) where
  cells c hc := by rw [cell_putBit, if_neg hc]
  awaiting := rfl
  status := rfl
  rom := rfl
  paging := rfl
  inputDevice := rfl
  events := rfl

/-- Settles O16: the gate sees cells `A` and `B` alone, and its result changes cell `B` alone. -/
theorem bitInstructionsTouchOnlyTheirCells : Obligations.BitInstructionsTouchOnlyTheirCells := by
  intro a b i hi s
  obtain ⟨gate, hexec⟩ := exec_bitInstruction hi
  have hframe := sameBut_putBit s b (gate (s.cell a.toNat) (s.cell b.toNat))
  refine ⟨_, hexec s, hframe, fun hab => hframe.cells _ ?sourceKept, fun s' t' ha hb ht' => ?sameResult⟩
  case sourceKept => exact fun h => hab (BitVec.eq_of_toNat_eq h)
  case sameResult =>
    obtain rfl : s'.putBit b (gate (s'.cell a.toNat) (s'.cell b.toNat)) = t' :=
      Host.Outcome.next.inj ((hexec s').symm.trans ht')
    rw [cell_putBit_self, cell_putBit_self, ha, hb]

end Sys2Proof.Machine

/-! PROOFS. The I/O handshake (60_exceptions.md R175 to R182): what a step's service phase and the device's turn after it leave
in the trace of interface events and in the I/O cells. -/

namespace Sys2Proof.Machine

/-- The output bits of a trace are those of its parts, in order (R185). -/
theorem outputBits_append (es fs : List Event) : outputBits (es ++ fs) = outputBits es ++ outputBits fs := by
  induction es with
  | nil => rfl
  | cons e rest ih => cases e <;> simp [outputBits, ih]

/-- The requests of a trace are those of its parts together (R185). -/
theorem requestCount_append (es fs : List Event) : requestCount (es ++ fs) = requestCount es + requestCount fs := by
  induction es with
  | nil => simp [requestCount]
  | cons e rest ih => cases e <;> simp [requestCount, ih, Nat.add_right_comm]

/-- The service phase sends OUT_BIT if OUT_READY is set, and no other bit (R175). -/
theorem outputBits_service (s : State) :
    outputBits s.service.events = outputBits s.events ++ if s.cell 19 then [s.cell 18] else [] := by
  have hsent : outputBits (if s.outReady then [Event.output s.outBit] else []) =
      if s.outReady then [s.outBit] else [] := by split <;> rfl
  have hasked : outputBits (if s.inReady = false ∧ s.awaiting = false then [Event.inputRequest] else []) = [] := by
    split <;> rfl
  rw [service_events, outputBits_append, outputBits_append, hsent, hasked, List.append_nil]
  rfl

/-- The service phase asks for a bit once if IN_READY is clear and no request is outstanding, and not otherwise (R177). -/
theorem requestCount_service (s : State) :
    requestCount s.service.events =
      requestCount s.events + if s.inReady = false ∧ s.awaiting = false then 1 else 0 := by
  have hsent : requestCount (if s.outReady then [Event.output s.outBit] else []) = 0 := by split <;> rfl
  have hasked : requestCount (if s.inReady = false ∧ s.awaiting = false then [Event.inputRequest] else []) =
      if s.inReady = false ∧ s.awaiting = false then 1 else 0 := by split <;> rfl
  rw [service_events, requestCount_append, requestCount_append, hsent, hasked, Nat.add_zero]

/-- A step boundary sends nothing: the device's turn can only complete a request (R176). -/
theorem outputBits_deviceTurn (s : State) : outputBits s.deviceTurn.events = outputBits s.events := by
  obtain hquiet | ⟨v, -, -, hlands⟩ := deviceTurn_cases s
  · rw [hquiet, deviceMoved_events]
  · rw [hlands, complete_events, outputBits_append, deviceMoved_events]
    exact List.append_nil _

/-- A step boundary requests nothing (R177). -/
theorem requestCount_deviceTurn (s : State) : requestCount s.deviceTurn.events = requestCount s.events := by
  obtain hquiet | ⟨v, -, -, hlands⟩ := deviceTurn_cases s
  · rw [hquiet, deviceMoved_events]
  · rw [hlands, complete_events, requestCount_append, deviceMoved_events]
    rfl

/-- A completion that is due for an outstanding request delivers its bit (R178). -/
theorem deviceTurn_delivers {s : State} {v : Bool} (hd : deviceDue s.inputDevice = some v) (ha : s.awaiting = true) :
    s.deviceTurn.inReady = true ∧ s.deviceTurn.inBit = v ∧ s.deviceTurn.awaiting = false := by
  rw [deviceTurn_due s v ha hd]
  exact ⟨cell_complete _ v 17, cell_complete _ v 16, complete_awaiting _ v⟩

/-- Settles O33: a due completion lands on an outstanding request, and without one only the device moves on. -/
theorem inputCompletionDeliversTheBit : Obligations.InputCompletionDeliversTheBit := by
  intro s v hd
  refine ⟨fun ha => ?lands, fun ha q => ?ignored⟩
  case lands =>
    obtain ⟨hready, hbit, hdone⟩ := deviceTurn_delivers hd ha
    refine ⟨hbit, hready, hdone, fun c h16 h17 => cell_deviceTurn s h16 h17, ?_, deviceTurn_status s,
      deviceTurn_rom s, deviceTurn_paging s⟩
    rw [deviceTurn_due s v ha hd, complete_events, deviceMoved_events]
  case ignored =>
    rw [deviceTurn_quiet s (.inl ha)]
    rfl

/-- A step whose instruction neither faults nor leaves the PC as it was is served, and then the device has its turn (R107,
R112). -/
theorem step_of_phase3_serviced {s u : State} (hs : s.status = .running) (hu : s.phase3 = some u)
    (hrun : u.status = .running) (hmoved : u.pc ≠ s.pc) : step s = .next u.service.deviceTurn := by
  rw [step_of_phase3 hs hu, finishStep_service u s.pc hrun hmoved]

/-- Up to phase 3 a step leaves the input device as it is (R112). -/
theorem phase3_inputDevice {s u : State} (h : s.phase3 = some u) : u.inputDevice = s.inputDevice := by
  obtain ⟨w, -, hx⟩ := phase3_eq_some.mp h
  obtain ⟨-, -, -, hdevice, -⟩ := exec_fields hx
  rw [hdevice, advancePc_inputDevice]

/-- Settles O31: the service phase sends the bit and clears OUT_READY, and the device's turn touches neither output cell. -/
theorem outputServiceSendsOutBit : Obligations.OutputServiceSendsOutBit := by
  intro s u hs hu hrun hmoved
  refine ⟨u.service.deviceTurn, step_of_phase3_serviced hs hu hrun hmoved, ?bits, ?outReady, ?outBit⟩
  case bits => rw [outputBits_deviceTurn, outputBits_service, phase3_events hu]
  case outReady => rw [cell_deviceTurn _ (by decide) (by decide), cell_service, if_pos rfl]
  case outBit => rw [cell_deviceTurn _ (by decide) (by decide), cell_service, if_neg (by decide)]

/-- Construction with a well-formed ROM and both devices reaches the state of R41, at whose boundary the input device has its
turn (R200). -/
theorem construct_eq_next {c : Config.Construction} {d : Config.InputDevice} {o : Config.OutputDevice}
    (hrom : romWellFormed c.rom = true) (hin : c.input = some d) (hout : c.output = some o) :
    construct c =
      .next (State.constructed (Memory.ofWords (c.rom.map (BitVec.ofNat 16))) c.paging d).deviceTurn := by
  simp only [construct, hrom, hin, hout, if_true]

/-- Settles O34: in both halves one request is outstanding at the step boundary, where a synchronous device delivers its bit. -/
theorem synchronousInputDevice : Obligations.SynchronousInputDevice := by
  refine ⟨fun c d o hrom hin hdue hout => ?construction, fun s u hs ha hu hrun hmoved hclear => ?step⟩
  case construction =>
    obtain ⟨hready, hbit, hdone⟩ := deviceTurn_delivers (s := State.constructed _ c.paging d) hdue rfl
    exact ⟨_, construct_eq_next hrom hin hout, hready, hbit, hdone, requestCount_deviceTurn _⟩
  case step =>
    refine ⟨u.service.deviceTurn, step_of_phase3_serviced hs hu hrun hmoved, ?oneRequest, fun hdue => ?answered⟩
    case oneRequest =>
      rw [requestCount_deviceTurn, requestCount_service, phase3_events hu,
        if_pos ⟨hclear, (phase3_awaiting hu).trans ha⟩]
    case answered =>
      apply deviceTurn_delivers
      · rw [service_inputDevice, phase3_inputDevice hu, hdue]
      · rw [service_awaiting, hclear, Bool.not_false, Bool.or_true]

end Sys2Proof.Machine

/-! PROOFS. What follows a halt (70_reset_and_hazards.md R206): no service phase in the halting step, and after it step
boundaries alone. -/

namespace Sys2Proof.Machine

/-- Phase 3 of a running core's step does not halt it: only phase 4 does (R105). -/
theorem phase3_status_ne_halted {s u : State} (hs : s.status = .running) (hu : s.phase3 = some u) :
    u.status ≠ .halted := by
  obtain ⟨w, -, hx⟩ := phase3_eq_some.mp hu
  obtain hkept | ⟨a, b, -, -, rfl⟩ := exec_status hx
  · simp [hkept, hs]
  · simp

/-- The only way phases 4 and 5 leave a halted state is the halt itself, which skips the service phase (R105). -/
theorem finishStep_of_status_halted {u : State} {oldPc : Word} (hu : u.status ≠ .halted)
    (h : (u.finishStep oldPc).status = .halted) : u.finishStep oldPc = u.halt := by
  cases hs : u.status with
  | halted => exact absurd hs hu
  | faulted c =>
    rw [finishStep_faulted u oldPc hs] at h
    exact absurd h hu
  | running =>
    by_cases hback : u.pc = oldPc
    · exact finishStep_halt u oldPc hs hback
    · rw [finishStep_service u oldPc hs hback, service_status] at h
      exact absurd h hu

/-- A step that halts leaves what its instruction left, halted, and then the device has its turn (R105, R112). -/
theorem step_of_phase3_halted {s u t : State} (hs : s.status = .running) (hu : s.phase3 = some u)
    (ht : step s = .next t) (hhalted : t.status = .halted) : t = u.halt.deviceTurn := by
  obtain rfl : (u.finishStep s.pc).deviceTurn = t := Host.Outcome.next.inj ((step_of_phase3 hs hu).symm.trans ht)
  rw [deviceTurn_status] at hhalted
  rw [finishStep_of_status_halted (phase3_status_ne_halted hs hu) hhalted]

/-- A run of a halted or faulted core is a series of step boundaries (R100, R112). -/
theorem run_stopped {s : State} (h : s.status ≠ .running) (n : Nat) :
    Host.Core.run Sys2Proof.core n s = .next (State.deviceTurn^[n] s) := by
  induction n generalizing s with
  | zero => rfl
  | succ n ih =>
    have hnext : s.deviceTurn.status ≠ .running := by rwa [deviceTurn_status]
    rw [run_next s n (step_of_coreStep s (coreStep_stopped h)), ih hnext, Function.iterate_succ_apply]

/-- What one step boundary keeps, any number of them keeps. -/
theorem iterate_deviceTurn_keeps {α : Type} {f : State → α} (hf : ∀ s : State, f s.deviceTurn = f s) (n : Nat)
    (s : State) : f (State.deviceTurn^[n] s) = f s := by
  have hsemi : Function.Semiconj f State.deviceTurn id := hf
  rw [hsemi.iterate_right n s, Function.iterate_id, id]

/-- Settles O30: after the halting step's instruction there are only step boundaries, the halting step's own and one for each
further step, and a step boundary sends nothing, requests nothing and leaves OUT_READY. -/
theorem haltingStepNeverSends : Obligations.HaltingStepNeverSends := by
  intro s u t n hs hu ht hhalted
  have hstopped : t.status ≠ .running := by simp [hhalted]
  have hboundaries : State.deviceTurn^[n] t = State.deviceTurn^[n + 1] u.halt := by
    rw [step_of_phase3_halted hs hu ht hhalted, Function.iterate_succ_apply]
  refine ⟨State.deviceTurn^[n + 1] u.halt, hboundaries ▸ run_stopped hstopped n, ?halted, ?outReady, ?bits, ?requests⟩
  case halted => rw [iterate_deviceTurn_keeps deviceTurn_status, halt_status]
  case outReady =>
    rw [iterate_deviceTurn_keeps (f := (State.cell · 19)) fun s => cell_deviceTurn s (by decide) (by decide), halt_cell]
  case bits =>
    rw [iterate_deviceTurn_keeps (f := (outputBits ·.events)) outputBits_deviceTurn, halt_events, phase3_events hu]
  case requests =>
    rw [iterate_deviceTurn_keeps (f := (requestCount ·.events)) requestCount_deviceTurn, halt_events, phase3_events hu]

end Sys2Proof.Machine

/-! PROOFS. The decoder and the encoder as inverses of each other (30_encoding.md R82, R87). -/

namespace Sys2Proof

/-- The packed word's three fields are the opcode and the operands of the instruction it encodes (R80, R82). -/
theorem decode_encode (i : Instr) : decode (encode i) = i := by
  cases i <;> simp only [encode, opcodeOf, decode, fieldOp_packFields, fieldA_packFields, fieldB_packFields]

/-- No word loses a bit by decoding: its opcode is the decoded constructor, its fields are the operands (R87). -/
theorem encode_decode (w : Word) : encode (decode w) = w := by
  have hw := packFields_fields w
  rcases fieldOp_values (fieldOp w) with hop | hop | hop | hop <;>
  · rw [hop] at hw
    simp only [decode, hop, encode, opcodeOf, hw]

theorem wellFormed_eq_true (i : Instr) : i.wellFormed = true := by
  cases i <;> rfl

end Sys2Proof

namespace Sys2Proof.Machine

/-- Every instruction answers a next state from every state: a `load` without a ROM word answers its faulted state (R87, R164). -/
theorem exec_answers (i : Instr) (s : State) : ∃ t : State, exec i s = .next t := by
  cases i with
  | copy a b => exact ⟨_, rfl⟩
  | load a b =>
    cases hr : s.rom.read (s.effIdx a) with
    | some v => exact ⟨_, execLoad_some hr⟩
    | none => exact ⟨_, execLoad_none hr⟩
  | nand a b => exact ⟨_, rfl⟩
  | xor a b => exact ⟨_, rfl⟩

/-- Settles O1: the packed word's three fields are the opcode and the operands. -/
theorem decodeOfEncodeIsTheInstruction : Obligations.DecodeOfEncodeIsTheInstruction :=
  fun i _ => decode_encode i

/-- Settles O3: `decode` and `encode` are inverse to each other, and every instruction has its meaning. -/
theorem everyWordIsExactlyOneInstruction : Obligations.EveryWordIsExactlyOneInstruction := by
  intro w
  refine ⟨wellFormed_eq_true _, encode_decode w, fun i hi => ?unique, exec_answers _⟩
  case unique => rw [← hi, decode_encode]

/-- Settles O4: each word is the encoding of the instruction the spec names. -/
theorem wordsOfTheSpecDecode : Obligations.WordsOfTheSpecDecode :=
  ⟨decode_encode (.copy 20 40), decode_encode (.load 7 20), decode_encode (.nand 19 19), decode_encode (.xor 20 22),
    decode_encode (.xor 15 15), decode_encode (.load 127 20)⟩

end Sys2Proof.Machine

/-! PROOFS. Word results (20_memory.md R53, 41_word_ops.md R120, R122): what a word write changes and leaves, and `copy` and
`load` as word writes. -/

namespace Sys2Proof.Machine

/-- A word write leaves all of the state but its 16 cells (R53). -/
theorem sameBut_writeWord (s : State) (a : Nat) (v : Word) : s.SameBut (s.writeWord a v) (inWord a) where
  cells _ hc := cell_writeWord_out s v hc
  awaiting := rfl
  status := rfl
  rom := rfl
  paging := rfl
  inputDevice := rfl
  events := rfl

/-- Settles O6. A word that starts at 127 or below ends at 142 or below. -/
theorem wordWriteSetsItsSixteenCells : Obligations.WordWriteSetsItsSixteenCells := by
  intro s a v ha
  refine ⟨fun k hk => cell_writeWord_getLsbD s v ha (by omega), sameBut_writeWord s a v, fun hin => ?_⟩
  have hend : 143 < a + 16 := hin.2
  omega

theorem exec_copy (a b : Addr) (s : State) : exec (.copy a b) s = .next (s.writeWord b.toNat (s.readWord a.toNat)) := rfl

theorem readWord_writeWord_addr (s : State) (b : Addr) (v : Word) : (s.writeWord b.toNat v).readWord b.toNat = v :=
  readWord_writeWord_self s v (by have := addr_lt b; omega)

/-- A word rewritten with its own value changes no cell, those past cell 142 included. -/
theorem cell_writeWord_readWord (s : State) (a c : Nat) : (s.writeWord a (s.readWord a)).cell c = s.cell c := by
  rw [cell_writeWord]
  split
  · rw [getMsbD_readWord s a (by omega), Nat.add_sub_cancel' (by omega)]
  · rfl

/-- Settles O9: the source word is read before the write, so the overlap does not matter. -/
theorem copyMovesTheWholeWord : Obligations.CopyMovesTheWholeWord := by
  intro a b s
  refine ⟨_, exec_copy a b s, readWord_writeWord_addr s b _, fun k hk => ?moved, sameBut_writeWord s _ _,
    fun hab c => ?same⟩
  case moved => rw [cell_writeWord_in s _ hk (by have := addr_lt b; omega), getMsbD_readWord s _ hk]
  case same => rw [hab, cell_writeWord_readWord]

/-- Settles O10: a `load` with a ROM word at its index is a word write. -/
theorem loadWritesTheRomWord : Obligations.LoadWritesTheRomWord := by
  intro a b s v hread
  exact ⟨_, execLoad_some hread, readWord_writeWord_addr s b v,
    fun k hk => cell_writeWord_getLsbD s v (by have := addr_lt b; omega) (by omega), sameBut_writeWord s _ v⟩

end Sys2Proof.Machine

/-! PROOFS. The page and the effective index (20_memory.md R60 to R62): the page as the number that cells 129 to 137 hold. -/

namespace Sys2Proof.Machine

/-- The page number bit by bit: cell 137 is its least significant bit, cell 129 its most (R61, D6). -/
theorem testBit_pageNumber (s : State) (j : Nat) : s.pageNumber.testBit j = (decide (j < 9) && s.cell (137 - j)) := by
  have hmask : s.pageNumber = (s.pagingRead.toNat &&& (2 ^ 15 - 1)) >>> 6 := rfl
  rw [hmask, Nat.testBit_shiftRight, Nat.testBit_and, Nat.testBit_two_pow_sub_one, BitVec.testBit_toNat]
  by_cases hj : j < 9
  · rw [State.pagingRead, getLsbD_readWord _ _ (by omega), show Config.hiddenCell + (15 - (6 + j)) = 137 - j by
      simp only [Config.hiddenCell]; omega]
    simp [hj, show 6 + j < 15 by omega]
  · simp [hj, show ¬ 6 + j < 15 by omega]

/-- The page number is the value of the nine cells from 129 on (R61, D6). -/
theorem pageNumber_eq_bitsValue (s : State) : s.pageNumber = bitsValue 0 9 (s.regs.toList.drop 129) := by
  apply Nat.eq_of_testBit_eq
  intro j
  rw [testBit_pageNumber, testBit_bitsValue, Nat.zero_testBit]
  by_cases hj : j < 9
  · simp [hj, State.cell, cellAt, List.getD_eq_getElem?_getD, show 129 + (8 - j) = 137 - j by omega]
  · simp [hj]

theorem pageNumber_lt (s : State) : s.pageNumber < 512 := by
  rw [pageNumber_eq_bitsValue]
  exact bitsValue_zero_lt _ 9

theorem pageNumber_eq_sum (s : State) :
    s.pageNumber = ((List.range 9).map fun j => (s.cell (129 + j)).toNat <<< (8 - j)).sum := by
  have hcell : ∀ k, (s.regs.toList.drop 129).getD k false = s.cell (129 + k) := fun k => by
    simp [State.cell, cellAt, List.getD_eq_getElem?_getD]
  rw [pageNumber_eq_bitsValue, bitsValue_eq_sum]
  simp only [hcell, Nat.zero_shiftLeft, Nat.zero_add, Nat.reduceSub]

/-- The page number sees cells 129 to 137 alone: cell 128 is masked away, and those past 137 are shifted out (R62). -/
theorem pageNumber_congr_pageCells {s t : State} (h : ∀ c, 129 ≤ c → c ≤ 137 → t.cell c = s.cell c) :
    t.pageNumber = s.pageNumber := by
  apply Nat.eq_of_testBit_eq
  intro j
  rw [testBit_pageNumber, testBit_pageNumber]
  by_cases hj : j < 9
  · rw [h _ (by omega) (by omega)]
  · simp [hj]

theorem effIdx_unpaged {s : State} (hp : s.paging = false) (a : Addr) : s.effIdx a = a.toNat := by
  simp [State.effIdx, hp]

theorem effIdx_paged {s : State} (hp : s.paging = true) (a : Addr) :
    s.effIdx a = (s.pageNumber <<< 8) ||| a.toNat := by
  simp [State.effIdx, hp]

/-- The page and the operand do not overlap, so the paged index is their sum (R62). -/
theorem effIdx_paged_eq_add {s : State} (hp : s.paging = true) (a : Addr) :
    s.effIdx a = s.pageNumber * 256 + a.toNat := by
  rw [effIdx_paged hp, ← Nat.shiftLeft_add_eq_or_of_lt (by have := addr_lt a; omega), Nat.shiftLeft_eq]

/-- Settles O11: the two forms of the paged index are the definition's and the sum of the page's cells. -/
theorem effectiveIndexFollowsPaging : Obligations.EffectiveIndexFollowsPaging := by
  intro s a
  refine ⟨fun hp => ?unpaged, fun hp => ⟨effIdx_paged hp a, ?cells⟩⟩
  case unpaged =>
    have := addr_lt a
    rw [effIdx_unpaged hp]
    omega
  case cells => exact (effIdx_paged hp a).trans (by rw [pageNumber_eq_sum]; rfl)

/-- Settles O12, from the paged index as a sum and the page's cells. -/
theorem pagedIndexHasSeventeenBits : Obligations.PagedIndexHasSeventeenBits := by
  intro s a hp
  have hpage := pageNumber_lt s
  have ha := addr_lt a
  refine ⟨by omega, ?range, ?bit7, fun t htp hcells => ?onlyPageCells, fun hones => ?last⟩
  case range =>
    rw [effIdx_paged_eq_add hp]
    omega
  case bit7 => simp [effIdx_paged hp, Nat.testBit_lt_two_pow (show a.toNat < 2 ^ 7 from ha)]
  case onlyPageCells => rw [effIdx_paged htp, effIdx_paged hp, pageNumber_congr_pageCells hcells]
  case last =>
    have hfull : s.pageNumber = 2 ^ 9 - 1 := Nat.eq_of_testBit_eq fun j => by
      rw [testBit_pageNumber, Nat.testBit_two_pow_sub_one]
      by_cases hj : j < 9
      · rw [hones _ (by omega) (by omega), Bool.and_true]
      · simp [hj]
    rw [effIdx_paged_eq_add hp, hfull]
    rfl

/-- Cell 137 alone set is page 1. -/
theorem pageNumber_eq_one {s : State} (h137 : s.cell 137 = true) (hrest : ∀ c, 129 ≤ c → c ≤ 136 → s.cell c = false) :
    s.pageNumber = 1 := by
  rw [pageNumber_eq_sum]
  simp [List.range_succ, h137, hrest]

/-- Settles O13: with page 1 the paged index of operand 5 is 261. -/
theorem pagedLoadOfOperandFive : Obligations.PagedLoadOfOperandFive := by
  refine ⟨fun s b v hp hread => ?paged, fun s b v5 v261 h5 h261 h137 hrest => ?pageOne⟩
  case paged =>
    exact ⟨_, execLoad_some (a := 5) ((effIdx_paged hp 5).symm ▸ hread), readWord_writeWord_addr s b v⟩
  case pageOne =>
    cases hp : s.paging with
    | false =>
      exact ⟨_, execLoad_some (a := 5) ((effIdx_unpaged hp 5).symm ▸ h5), readWord_writeWord_addr s b v5⟩
    | true =>
      have hidx : s.effIdx 5 = 261 := by rw [effIdx_paged hp, pageNumber_eq_one h137 hrest]; rfl
      exact ⟨_, execLoad_some (hidx.symm ▸ h261), readWord_writeWord_addr s b v261⟩

/-- A word written at 127 has its bits 14 to 0 in cells 128 to 142, and the virtual cell reads false below them (R22, R55). -/
theorem readWord_128_writeWord_127 (s : State) (v : Word) : (s.writeWord 127 v).readWord 128 = v <<< 1 := by
  apply word_ext
  intro k hk
  rw [getMsbD_readWord _ _ hk, BitVec.getMsbD_shiftLeft]
  by_cases hlast : k = 15
  · subst hlast
    rw [cell_beyond _ (by omega), BitVec.getMsbD_of_ge v _ (by omega)]
  · rw [show 128 + k = 127 + (k + 1) by omega, cell_writeWord_in s v (by omega) (by omega)]

/-- Settles O8: the page is read from the shifted word. -/
theorem wordAt127SetsThePage : Obligations.WordAt127SetsThePage := by
  intro s v
  refine ⟨readWord_128_writeWord_127 s v, ?page⟩
  have hmask : (s.writeWord 127 v).pageNumber = (((s.writeWord 127 v).readWord 128).toNat &&& (2 ^ 15 - 1)) >>> 6 := rfl
  rw [hmask, readWord_128_writeWord_127, Nat.and_two_pow_sub_one_eq_mod, BitVec.toNat_shiftLeft]
  simp only [Nat.shiftLeft_eq, Nat.shiftRight_eq_div_pow]
  omega

end Sys2Proof.Machine

/-! PROOFS. The results of the bit instructions (42_bit_ops.md R140, R141). -/

namespace Sys2Proof.Machine

/-- Settles O14: the gate's result is a bit result. -/
theorem nandWritesItsDestinationCell : Obligations.NandWritesItsDestinationCell :=
  fun a b s => ⟨_, exec_nand a b s, cell_putBit_self s b _, sameBut_putBit s b _⟩

theorem xorGate_eq (x y : Bool) : xorGate x y = (x ^^ y) := by
  cases x <;> cases y <;> rfl

/-- Settles O15: as O14, with the other gate. -/
theorem xorWritesItsDestinationCell : Obligations.XorWritesItsDestinationCell := by
  intro a b s
  refine ⟨_, exec_xor a b s, ?_, sameBut_putBit s b _⟩
  rw [cell_putBit_self, xorGate_eq]

end Sys2Proof.Machine

/-! PROOFS. The cycle (40_cycle.md R100 to R111): every step answers, phase 1, and what a step leaves of what its instruction
did. -/

namespace Sys2Proof.Machine

/-- Phases 4 and 5 keep a faulted state, halt one whose PC is back, and service any other (R105, R107, R168). -/
theorem finishStep_cases (u : State) (oldPc : Word) :
    (∃ c, u.status = .faulted c ∧ u.finishStep oldPc = u) ∨
    (u.pc = oldPc ∧ u.finishStep oldPc = u.halt) ∨
    (u.pc ≠ oldPc ∧ u.finishStep oldPc = u.service) := by
  unfold State.finishStep
  split
  · rename_i c hc
    exact .inl ⟨c, hc, rfl⟩
  · by_cases hback : u.pc = oldPc
    · exact .inr (.inl ⟨hback, if_pos hback⟩)
    · exact .inr (.inr ⟨hback, if_neg hback⟩)

/-- The step of a core, running or not, always answers a next state (R160, R166). -/
theorem coreStep_answers {s : State} (h : s.rom.len ≠ 0 ∨ s.status ≠ .running) : ∃ t : State, coreStep s = .next t := by
  by_cases hs : s.status = .running
  · have hl : s.rom.len ≠ 0 := h.resolve_right (not_not_intro hs)
    cases hf : s.fetch with
    | none => exact ⟨_, coreStep_noFetch s hs hl hf⟩
    | some w =>
      obtain ⟨u, hu⟩ := exec_answers (decode w) s.advancePc
      exact ⟨_, coreStep_fetch s hs hf hu⟩
  · exact ⟨s, coreStep_stopped hs⟩

/-- Settles O26: the step boundary follows whatever the core's step answers. -/
theorem everyStepAnswers : Obligations.EveryStepAnswers := by
  refine fun s => ⟨fun h => ?answers, fun hl hs => ?refused⟩
  case answers =>
    obtain ⟨t, ht⟩ := coreStep_answers h
    exact ⟨_, step_of_coreStep s ht⟩
  case refused => simp [step, cycle, coreStep, hs, hl]

/-- Settles O18: the three forms of phases 4 and 5. -/
theorem stepRunsTheDecodedInstruction : Obligations.StepRunsTheDecodedInstruction := by
  intro s w hs hf
  obtain ⟨u, hu⟩ := exec_answers (decode w) s.advancePc
  have hstep : step s = .next (u.finishStep s.pc).deviceTurn := step_of_coreStep s (coreStep_fetch s hs hf hu)
  refine ⟨wellFormed_eq_true _, u, hu, fun ⟨c, hc⟩ => ?faulted, fun hrun hback => ?halted, fun hrun hmoved => ?serviced⟩
  case faulted => rw [hstep, finishStep_faulted u s.pc hc]
  case halted => rw [hstep, finishStep_halt u s.pc hrun hback]
  case serviced => rw [hstep, finishStep_service u s.pc hrun hmoved]

/-- Phase 1 leaves all of the state but the PC cells (R101). -/
theorem sameBut_advancePc (s : State) : s.SameBut s.advancePc (fun c => c < 16) where
  cells _ hc := cell_advancePc s (Nat.le_of_not_lt hc)
  awaiting := rfl
  status := rfl
  rom := rfl
  paging := rfl
  inputDevice := rfl
  events := rfl

/-- Settles O20: phase 1 is a write of the PC word, and 16-bit addition wraps. -/
theorem phaseOneIncrementsThePc : Obligations.PhaseOneIncrementsThePc := by
  intro s
  rw [pc_advancePc]
  refine ⟨BitVec.toNat_add _ _, fun hlast => ?below, fun hlast => by rw [hlast]; rfl, sameBut_advancePc s⟩
  case below => bv_omega

theorem word_add_one_ne (p : Word) : p + 1#16 ≠ p := by
  intro h
  bv_omega

/-- The instruction fetched as an encoded word is the one phase 3 executes (R103). -/
theorem phase3_of_fetch_encode {s u : State} {i : Instr} (hf : s.fetch = some (encode i))
    (hx : exec i s.advancePc = .next u) : s.phase3 = some u :=
  phase3_eq_some.mpr ⟨encode i, hf, by rwa [decode_encode]⟩

/-- A step whose instruction does not fault leaves the PC as the instruction left it, and halts exactly where that is `oldPc`
(R105, R106). -/
theorem step_of_phase3_running {s u : State} (hs : s.status = .running) (hu : s.phase3 = some u)
    (hrun : u.status = .running) :
    ∃ t : State, step s = .next t ∧ t.pc = u.pc ∧ t.status = if u.pc = s.pc then .halted else .running := by
  refine ⟨_, step_of_phase3 hs hu, ?_⟩
  by_cases hback : u.pc = s.pc
  · rw [finishStep_halt u s.pc hrun hback, pc_deviceTurn, deviceTurn_status, if_pos hback]
    exact ⟨halt_pc u, halt_status u⟩
  · rw [finishStep_service u s.pc hrun hback, pc_deviceTurn, deviceTurn_status, if_neg hback]
    exact ⟨pc_service u, (service_status u).trans hrun⟩

/-- A step that neither faults nor halts, seen from its instruction's result: it goes on, and its output is served. -/
theorem step_goesOn {s u : State} (hs : s.status = .running) (hu : s.phase3 = some u) (hrun : u.status = .running)
    (hmoved : u.pc ≠ s.pc) :
    ∃ t : State, step s = .next t ∧ t.status = .running ∧ t.pc = u.pc ∧
      outputBits t.events = outputBits s.events ++ (if u.cell 19 then [u.cell 18] else []) ∧
      t.outReady = false ∧ t.outBit = u.cell 18 := by
  obtain ⟨t, ht, hbits, hready, hbit⟩ := outputServiceSendsOutBit s u hs hu hrun hmoved
  obtain ⟨t', ht', hpc, hstatus⟩ := step_of_phase3_running hs hu hrun
  obtain rfl : t' = t := Host.Outcome.next.inj (ht'.symm.trans ht)
  exact ⟨t', ht, by rw [hstatus, if_neg hmoved], hpc, hbits, hready, hbit⟩

/-- After phase 1 PC cell `c` holds bit `15 - c` of `oldPc + 1` (R104). -/
theorem cell_advancePc_pc (s : State) {c : Nat} (hc : c < 16) :
    s.advancePc.cell c = (s.pc + 1#16).getLsbD (15 - c) := by
  rw [← pc_advancePc, State.pc, getLsbD_readWord _ _ (by omega)]
  congr 1
  simp only [Config.pcCell]
  omega

/-- Settles O21: `copy 0, b` reads the incremented PC, and `copy 0, 0` writes it back. -/
theorem instructionsReadTheIncrementedPc : Obligations.InstructionsReadTheIncrementedPc := by
  refine ⟨fun s c hc => cell_advancePc_pc s hc, fun s b => ?stores, fun s hs hf => ?ontoItself⟩
  case stores =>
    exact ⟨_, exec_copy 0 b s.advancePc, (readWord_writeWord_addr _ b _).trans (pc_advancePc s)⟩
  case ontoItself =>
    have hpc : (s.advancePc.writeWord 0 (s.advancePc.readWord 0)).pc = s.pc + 1#16 :=
      (pc_congr fun c _ => cell_writeWord_readWord _ 0 c).trans (pc_advancePc s)
    obtain ⟨t, ht, htpc, htstatus⟩ := step_of_phase3_running hs (phase3_of_fetch_encode hf (exec_copy 0 0 _)) hs
    rw [show (0 : Addr).toNat = 0 from rfl, hpc] at htpc htstatus
    exact ⟨t, ht, htpc, by rw [htstatus, if_neg (word_add_one_ne _)]⟩

/-- No instruction writes a cell below its destination (R120, R122, R142). -/
theorem cell_exec_below {i : Instr} {s t : State} (h : exec i s = .next t) {c : Nat}
    (hc : c < (destination i).toNat) : t.cell c = s.cell c := by
  obtain ⟨a, b, rfl, rfl⟩ | ⟨a, b, v, rfl, -, rfl⟩ | ⟨a, b, rfl, -, rfl⟩ | ⟨a, b, rfl, rfl⟩ | ⟨a, b, rfl, rfl⟩ :=
    exec_cases h <;> simp only [destination] at hc
  · exact cell_putWord_out s b _ (by omega)
  · exact cell_putWord_out s b v (by omega)
  · rfl
  · exact (sameBut_putBit s b _).cells c hc.ne
  · exact (sameBut_putBit s b _).cells c hc.ne

/-- Settles O23: the PC cells lie below the destination, and a `load` finds its ROM word. -/
theorem stepsOffThePcAdvanceByOne : Obligations.StepsOffThePcAdvanceByOne := by
  intro s w hs hf hdest hload
  obtain ⟨u, hu⟩ := exec_answers (decode w) s.advancePc
  have hpc : u.pc = s.pc + 1#16 := (pc_congr fun c hc => cell_exec_below hu (by omega)).trans (pc_advancePc s)
  have hrun : u.status = .running := by
    obtain hkept | ⟨a, b, hdec, hread, -⟩ := exec_status hu
    · rw [hkept, advancePc_status, hs]
    · rw [effIdx_advancePc, advancePc_rom, read_eq_none] at hread
      exact absurd (hload a b hdec) (by omega)
  obtain ⟨t, ht, htpc, htstatus⟩ := step_of_phase3_running hs (phase3_eq_some.mpr ⟨w, hf, hu⟩) hrun
  exact ⟨t, ht, by rw [htstatus, hpc, if_neg (word_add_one_ne _)], htpc.trans hpc⟩

/-- A word off the PC cells reads the same in phase 3 as before the step. -/
theorem readWord_advancePc (s : State) {a : Nat} (ha : 16 ≤ a) : s.advancePc.readWord a = s.readWord a :=
  readWord_congr fun _ _ => cell_advancePc s (by omega)

/-- A word written at address 0 is the PC (R27). -/
theorem pc_writeWord_zero (s : State) (v : Word) : (s.writeWord 0 v).pc = v := pc_setPc s v

/-- Settles O24: both write the PC word in phase 3. -/
theorem jumpsByCopyAndLoad : Obligations.JumpsByCopyAndLoad := by
  refine ⟨fun s a hs ha hf => ?copy, fun s k v hs hf hread => ?load⟩
  case copy =>
    obtain ⟨t, ht, hpc, hstatus⟩ := step_of_phase3_running hs (phase3_of_fetch_encode hf (exec_copy a 0 _)) hs
    rw [show (0 : Addr).toNat = 0 from rfl, pc_writeWord_zero, readWord_advancePc s ha] at hpc hstatus
    exact ⟨t, ht, hpc, hstatus⟩
  case load =>
    rw [← effIdx_advancePc, ← advancePc_rom] at hread
    obtain ⟨t, ht, hpc, hstatus⟩ :=
      step_of_phase3_running hs (phase3_of_fetch_encode hf (execLoad_some (b := 0) hread)) hs
    rw [putWord_eq, show (0 : Addr).toNat = 0 from rfl, pc_writeWord_zero] at hpc hstatus
    exact ⟨t, ht, hpc, hstatus⟩

/-- With nothing to send and no request due the service phase changes nothing (R175, R177). -/
theorem service_quiet {s : State} (hout : s.outReady = false) (hin : s.awaiting = true ∨ s.inReady = true) :
    s.service = s := by
  have hsent : s.outputService = s := by simp [State.outputService, hout]
  have hasked : s.inputService = s := if_neg (by obtain h | h := hin <;> simp [h])
  rw [State.service, hsent, hasked]

/-- Settles O25: the copy changes no cell, so the service phase and the step boundary find what the step began with. -/
theorem copyOntoItselfOnlyAdvancesThePc : Obligations.CopyOntoItselfOnlyAdvancesThePc := by
  intro s a hs ha hf hout hin hdue
  have hx := exec_copy a a s.advancePc
  generalize hu : s.advancePc.writeWord a.toNat (s.advancePc.readWord a.toNat) = u at hx
  have hframe : s.advancePc.SameBut u (inWord a.toNat) := hu ▸ sameBut_writeWord _ _ _
  have hcells : ∀ c, u.cell c = s.advancePc.cell c := fun c => hu ▸ cell_writeWord_readWord _ _ c
  have hkept : ∀ c, 16 ≤ c → u.cell c = s.cell c := fun c hc => (hcells c).trans (cell_advancePc s hc)
  have hpc : u.pc = s.pc + 1#16 := (pc_congr fun c _ => hcells c).trans (pc_advancePc s)
  have hrun : u.status = .running := hframe.status.trans hs
  have hquiet : u.service = u :=
    service_quiet ((hkept 19 (by omega)).trans hout)
      (hin.imp hframe.awaiting.trans (hkept 17 (by omega)).trans)
  have hturn : u.deviceTurn = u.deviceMoved :=
    deviceTurn_quiet u (hdue.imp hframe.awaiting.trans fun h v => by rw [hframe.inputDevice]; exact h v)
  have hstep := step_of_phase3_serviced hs (phase3_of_fetch_encode hf hx) hrun (by rw [hpc]; exact word_add_one_ne _)
  rw [hquiet, hturn] at hstep
  exact ⟨_, hstep, hpc, hkept, hframe.awaiting, hframe.status, hframe.events, hframe.rom, hframe.paging⟩

end Sys2Proof.Machine

/-! PROOFS. Bit instructions into the PC (42_bit_ops.md R145): `xor c, 15` flips the low bit of the incremented PC iff `x[c]`. -/

namespace Sys2Proof.Machine

/-- A bit written to PC cell `15 - k` is bit `k` of the PC; the other bits stay (R27). -/
theorem getLsbD_pc_putBit (s : State) {b : Addr} {k : Nat} (hk : k ≤ 15) (hb : b.toNat = 15 - k) (v : Bool) {j : Nat}
    (hj : j < 16) : (s.putBit b v).pc.getLsbD j = if j = k then v else s.pc.getLsbD j := by
  rw [State.pc, getLsbD_readWord _ _ hj, cell_putBit, State.pc, getLsbD_readWord _ _ hj, hb]
  by_cases hjk : j = k
  · rw [if_pos hjk, if_pos (by simp only [Config.pcCell]; omega)]
  · rw [if_neg hjk, if_neg (by simp only [Config.pcCell]; omega)]

/-- The PC after cell 15 is replaced by its XOR with `x`. -/
theorem pc_putBit_xor_15 (s : State) (x : Bool) :
    (s.putBit 15 (xorGate x (s.cell 15))).pc = s.pc ^^^ if x then 1#16 else 0#16 := by
  have hmask : ∀ j, (if x then 1#16 else 0#16).getLsbD j = (x && decide (j = 0)) := fun j => by cases x <;> simp
  have hlow : s.pc.getLsbD 0 = s.cell 15 := getLsbD_readWord s 0 (by decide)
  apply BitVec.eq_of_getLsbD_eq
  intro j hj
  rw [getLsbD_pc_putBit s (k := 0) (by decide) rfl _ hj, BitVec.getLsbD_xor, hmask]
  by_cases h0 : j = 0
  · rw [if_pos h0, h0, hlow, xorGate_eq, Bool.xor_comm]
    simp
  · simp [h0]

theorem add_one_xor_one_of_even {p : Word} (h : p.toNat % 2 = 0) : (p + 1#16) ^^^ 1#16 = p := by
  have hodd : Odd (p + 1#16).toNat := Nat.odd_iff.mpr (by rw [BitVec.toNat_add]; simp; omega)
  apply BitVec.eq_of_toNat_eq
  rw [BitVec.toNat_xor, show (1#16).toNat = 1 from rfl, Nat.xor_one_of_odd hodd, BitVec.toNat_add]
  simp
  omega

theorem add_one_xor_one_of_odd {p : Word} (h : p.toNat % 2 = 1) : (p + 1#16) ^^^ 1#16 = p + 1#16 + 1#16 := by
  have heven : Even (p + 1#16).toNat := Nat.even_iff.mpr (by rw [BitVec.toNat_add]; simp; omega)
  apply BitVec.eq_of_toNat_eq
  rw [BitVec.toNat_xor, show (1#16).toNat = 1 from rfl, Nat.xor_one_of_even heven, BitVec.toNat_add _ 1#16]
  have hlt := (p + 1#16).isLt
  have heven' := Nat.even_iff.mp heven
  simp
  omega

/-- A running step of `xor c, 15`: the low bit of `oldPc + 1` flips iff cell `c` is set (R141, R145). -/
theorem step_xor_15 {s : State} {c : Addr} (hs : s.status = .running) (hf : s.fetch = some (encode (.xor c 15))) :
    ∃ t : State, step s = .next t ∧ t.pc = ((s.pc + 1#16) ^^^ if s.advancePc.cell c.toNat then 1#16 else 0#16) ∧
      t.status = if t.pc = s.pc then .halted else .running := by
  obtain ⟨t, ht, hpc, hstatus⟩ := step_of_phase3_running hs (phase3_of_fetch_encode hf (exec_xor c 15 _)) hs
  refine ⟨t, ht, ?_, hpc ▸ hstatus⟩
  rw [hpc, show (15 : Addr).toNat = 15 from rfl, pc_putBit_xor_15, pc_advancePc]

/-- The same by the parity of `oldPc` (R145): with cell `c` clear the step goes on as off the PC; with it set it skips an
instruction at an odd index and halts at an even one. -/
theorem step_xor_15_cases {s : State} {c : Addr} (hs : s.status = .running) (hf : s.fetch = some (encode (.xor c 15))) :
    ∃ t : State, step s = .next t ∧
      if s.advancePc.cell c.toNat = false then t.status = .running ∧ t.pc = s.pc + 1#16
      else if s.pc.toNat % 2 = 1 then t.status = .running ∧ t.pc = s.pc + 1#16 + 1#16
      else t.status = .halted ∧ t.pc = s.pc := by
  obtain ⟨t, ht, hpc, hstatus⟩ := step_xor_15 hs hf
  refine ⟨t, ht, ?_⟩
  by_cases hc : s.advancePc.cell c.toNat = false
  · rw [hc, if_neg Bool.false_ne_true, BitVec.xor_zero] at hpc
    rw [if_pos hc, hstatus, hpc, if_neg (word_add_one_ne _)]
    exact ⟨rfl, rfl⟩
  · rw [if_neg hc]
    rw [Bool.not_eq_false] at hc
    rw [if_pos hc] at hpc
    by_cases hodd : s.pc.toNat % 2 = 1
    · rw [add_one_xor_one_of_odd hodd] at hpc
      rw [if_pos hodd, hstatus, hpc, if_neg (by bv_omega)]
      exact ⟨rfl, rfl⟩
    · rw [add_one_xor_one_of_even (by omega)] at hpc
      rw [if_neg hodd, hstatus, hpc, if_pos rfl]
      exact ⟨rfl, rfl⟩

/-- Settles O17: one bit of the incremented PC for each PC cell; for cell 15 by its parity. -/
theorem bitInstructionsIntoThePc : Obligations.BitInstructionsIntoThePc := by
  refine ⟨fun s a b k hk hb => ⟨⟨_, exec_nand a b _, fun j hj => ?nand⟩, ⟨_, exec_xor a b _, fun j hj => ?xor⟩⟩,
    fun s hs hf => ?onto15, fun s c hs hc hf => ?from16⟩
  case nand =>
    rw [getLsbD_pc_putBit _ hk hb _ hj, pc_advancePc, nandGate, hb, cell_advancePc_pc s (c := 15 - k) (by omega),
      show 15 - (15 - k) = k by omega]
  case xor =>
    rw [getLsbD_pc_putBit _ hk hb _ hj, pc_advancePc, xorGate_eq, hb, cell_advancePc_pc s (c := 15 - k) (by omega),
      show 15 - (15 - k) = k by omega]
  case onto15 =>
    have hlow : s.advancePc.cell (15 : Addr).toNat = decide (s.pc.toNat % 2 = 0) := by
      rw [show (15 : Addr).toNat = 15 from rfl, cell_advancePc_pc s (by decide), ← BitVec.testBit_toNat,
        Nat.testBit_zero, BitVec.toNat_add, decide_eq_decide]
      simp
      omega
    obtain ⟨t, ht, hcases⟩ := step_xor_15_cases hs hf
    refine ⟨t, ht, ?_⟩
    rw [hlow] at hcases
    by_cases heven : s.pc.toNat % 2 = 0
    · simpa [heven] using hcases
    · simpa [heven] using hcases
  case from16 =>
    obtain ⟨t, ht, hcases⟩ := step_xor_15_cases hs hf
    refine ⟨t, ht, ?_⟩
    rw [cell_advancePc s hc] at hcases
    cases hx : s.cell c.toNat with
    | false => simpa [hx] using hcases
    | true => simpa [hx] using hcases

/-- Settles O54: `halt` and `skipif c` are `xor 15, 15` and `xor c, 15` of R145. -/
theorem haltAndSkipifUnderTheirConditions : Obligations.HaltAndSkipifUnderTheirConditions := by
  obtain ⟨-, hxor15, hxor⟩ := bitInstructionsIntoThePc
  refine fun s i hs hf => ⟨fun hi hcond => ?halt, fun c hi hcond => ?skipif⟩
  case halt =>
    obtain rfl : Instr.xor 15 15 = i := List.singleton_inj.mp hi
    have heven : s.pc.toNat % 2 = 0 := by simpa [Pseudo.condition] using hcond
    obtain ⟨t, ht, hhalts⟩ := hxor15 s hs hf
    rw [if_pos heven] at hhalts
    exact ⟨t, ht, hhalts⟩
  case skipif =>
    obtain rfl : Instr.xor c 15 = i := List.singleton_inj.mp hi
    obtain ⟨hodd, hc⟩ : s.pc.toNat % 2 = 1 ∧ 16 ≤ c.toNat := by simpa [Pseudo.condition] using hcond
    obtain ⟨t, ht, hskips⟩ := hxor s c hs hc hf
    rw [if_pos hodd] at hskips
    refine ⟨t, ht, hskips.1, ?_⟩
    rw [hskips.2, BitVec.add_assoc]
    cases s.cell c.toNat <;> rfl

end Sys2Proof.Machine

/-! PROOFS. The faults (60_exceptions.md R163, R164): who raises each, and the state it leaves. -/

namespace Sys2Proof.Machine

/-- Settles O27: no phase but the first runs; and the only fault an instruction raises is a `load`'s. -/
theorem fetchBeyondTheRomFaults : Obligations.FetchBeyondTheRomFaults := by
  refine ⟨fun s hs hl hbeyond => ?step, fun i s t p hx hfault => ?exec⟩
  case step =>
    have hframe := sameBut_advancePc s
    exact ⟨_, step_of_coreStep s (coreStep_noFetch s hs hl (read_eq_none.mpr hbeyond)), rfl, pc_advancePc s,
      fun c hc => hframe.cells c (Nat.not_lt.mpr hc), hframe.awaiting, hframe.events, hframe.rom, hframe.paging,
      hframe.inputDevice⟩
  case exec =>
    obtain hkept | ⟨a, b, -, -, rfl⟩ := exec_status hx
    · exact hkept ▸ hfault
    · cases hfault

/-- Phases 4 and 5 raise no fault. -/
theorem status_of_finishStep_faulted {u : State} {oldPc : Word} {c : Fault}
    (h : (u.finishStep oldPc).status = .faulted c) : u.status = .faulted c := by
  obtain ⟨-, -, hkept⟩ | ⟨-, hhalt⟩ | ⟨-, hserved⟩ := finishStep_cases u oldPc
  · rwa [hkept] at h
  · rw [hhalt] at h
    cases h
  · rwa [hserved, service_status] at h

/-- Settles O28: the faulted `load` ends the step in phase 3; and neither a fetch nor another instruction raises its fault. -/
theorem loadBeyondTheRomFaults : Obligations.LoadBeyondTheRomFaults := by
  refine ⟨fun s w a b hs hf hdec hbeyond => ?step, fun s t i hs ht hfault => ?onlyLoad⟩
  case step =>
    have hx : exec (decode w) s.advancePc = .next (s.advancePc.raiseFault (.loadOutOfRange (s.effIdx a))) := by
      rw [hdec, ← effIdx_advancePc]
      exact execLoad_none (by rwa [effIdx_advancePc, read_eq_none])
    have hframe := sameBut_advancePc s
    refine ⟨_, step_of_phase3 hs (phase3_eq_some.mpr ⟨w, hf, hx⟩), ?_⟩
    rw [finishStep_faulted _ s.pc (raiseFault_status _ _)]
    exact ⟨rfl, pc_advancePc s, fun c hc => hframe.cells c (Nat.not_lt.mpr hc), hframe.awaiting, hframe.events, hframe.rom,
      hframe.paging, hframe.inputDevice⟩
  case onlyLoad =>
    obtain ⟨v, hv, rfl⟩ := step_cases s ht
    rw [deviceTurn_status] at hfault
    obtain ⟨hstopped, -⟩ | ⟨-, -, rfl⟩ | ⟨w, u, -, hf, hx, rfl⟩ := coreStep_cases s hv
    · exact absurd hs hstopped
    · cases hfault
    · have hu := status_of_finishStep_faulted hfault
      obtain hkept | ⟨a, b, hdec, hread, rfl⟩ := exec_status hx
      · rw [hkept, advancePc_status, hs] at hu
        cases hu
      · cases hu
        rw [effIdx_advancePc, advancePc_rom, read_eq_none] at hread
        exact ⟨w, a, b, hf, hdec, effIdx_advancePc s a, by rwa [effIdx_advancePc]⟩

end Sys2Proof.Machine

/-! PROOFS. The handshake step by step (60_exceptions.md R174 to R181): the calls of a step, the input channel, and what is
left after a halt or a fault. -/

namespace Sys2Proof.Machine

/-- Settles O36: the NAND of OUT_READY clear with itself sets it, and the service phase sends. -/
theorem settingOutReadySendsAtOnce : Obligations.SettingOutReadySendsAtOnce := by
  intro s hs hf hclear
  have hclear' : s.advancePc.cell 19 = false := (cell_advancePc s (by decide)).trans hclear
  have hx : exec (.nand 19 19) s.advancePc = .next (s.advancePc.putBit 19 true) := by
    rw [exec_nand, show (19 : Addr).toNat = 19 from rfl, hclear']
    rfl
  have hpc : (s.advancePc.putBit 19 true).pc = s.pc + 1#16 :=
    (pc_congr fun c hc => (sameBut_putBit _ 19 _).cells c (by rintro rfl; exact absurd hc (by decide))).trans
      (pc_advancePc s)
  obtain ⟨t, ht, hrun, htpc, hbits, hready, hbit⟩ :=
    step_goesOn hs (phase3_of_fetch_encode hf hx) hs (by rw [hpc]; exact word_add_one_ne _)
  have hset : (s.advancePc.putBit 19 true).cell 19 = true := cell_putBit_self _ 19 true
  have hkept : (s.advancePc.putBit 19 true).cell 18 = s.outBit :=
    (cell_putBit _ 19 true 18).trans (cell_advancePc s (by decide))
  exact ⟨t, ht, hrun, htpc.trans hpc, by rw [hbits, hset, hkept]; rfl, hready, hbit.trans hkept⟩

/-- Settles O37: the service phase sees the two bits that the copy wrote. -/
theorem oneCopyOverBothOutputCells : Obligations.OneCopyOverBothOutputCells := by
  intro s a b hs ha hb16 hb18 hf
  have hx := exec_copy a b s.advancePc
  rw [readWord_advancePc s ha] at hx
  generalize s.readWord a.toNat = v at hx ⊢
  have hpc : (s.advancePc.writeWord b.toNat v).pc = s.pc + 1#16 :=
    (pc_congr fun c hc => cell_writeWord_out _ v (by omega)).trans (pc_advancePc s)
  obtain ⟨t, ht, hrun, -, hbits, hready, -⟩ :=
    step_goesOn hs (phase3_of_fetch_encode hf hx) hs (by rw [hpc]; exact word_add_one_ne _)
  have hcell : ∀ c, 18 ≤ c → c ≤ 19 → (s.advancePc.writeWord b.toNat v).cell c = v.getMsbD (c - b.toNat) :=
    fun c h1 h2 => by rw [cell_writeWord, if_pos (by omega)]
  rw [hcell 19 (by decide) (by decide), hcell 18 (by decide) (by decide)] at hbits
  exact ⟨t, ht, hrun, hbits, hready⟩

/-- Settles O32: `t` is the served state, and up to phase 3 neither AWAITING nor the events change. -/
theorem inputServiceIssuesOneRequest : Obligations.InputServiceIssuesOneRequest := by
  intro s u hs hu hrun hmoved
  refine ⟨u.service, step_of_phase3_serviced hs hu hrun hmoved, ?awaiting, ?events⟩
  case awaiting =>
    rw [service_awaiting, phase3_awaiting hu]
    rfl
  case events =>
    rw [service_events, phase3_events hu, phase3_awaiting hu]
    rfl

/-- Only a service phase makes calls or changes AWAITING in a step of the core. -/
theorem coreStep_calls {s t : State} (h : coreStep s = .next t) :
    (t.events = s.events ∧ t.awaiting = s.awaiting) ∨ ∃ u, s.phase3 = some u ∧ t = u.service := by
  obtain ⟨-, rfl⟩ | ⟨-, -, rfl⟩ | ⟨w, u, -, hf, hx, rfl⟩ := coreStep_cases s h
  · exact .inl ⟨rfl, rfl⟩
  · exact .inl ⟨rfl, rfl⟩
  · have hu : s.phase3 = some u := phase3_eq_some.mpr ⟨w, hf, hx⟩
    obtain ⟨-, -, hkept⟩ | ⟨-, hhalt⟩ | ⟨-, hserved⟩ := finishStep_cases u s.pc
    · exact .inl (by rw [hkept]; exact ⟨phase3_events hu, phase3_awaiting hu⟩)
    · exact .inl (by rw [hhalt, halt_events, halt_awaiting]; exact ⟨phase3_events hu, phase3_awaiting hu⟩)
    · exact .inr ⟨u, hu, hserved⟩

/-- A step boundary adds at most a completion to the events (R178). -/
theorem deviceTurn_events (s : State) :
    ∃ es, s.deviceTurn.events = s.events ++ es ∧ outputBits es = [] ∧ requestCount es = 0 := by
  obtain hquiet | ⟨v, -, -, hlands⟩ := deviceTurn_cases s
  · exact ⟨[], by rw [hquiet, deviceMoved_events, List.append_nil], rfl, rfl⟩
  · exact ⟨[.inputCompletion v], by rw [hlands, complete_events, deviceMoved_events], rfl, rfl⟩

/-- A step of the core adds at most one output and, while a request is outstanding, no further one (R37, R175, R177). -/
theorem coreStep_events {s t : State} (h : coreStep s = .next t) :
    ∃ es, t.events = s.events ++ es ∧ (outputBits es).length ≤ 1 ∧ requestCount es ≤ 1 ∧
      (s.awaiting = true → requestCount es = 0) := by
  obtain ⟨hevents, -⟩ | ⟨u, hu, rfl⟩ := coreStep_calls h
  · exact ⟨[], by rw [hevents, List.append_nil], by simp [outputBits], by simp [requestCount], fun _ => rfl⟩
  · refine ⟨_, by rw [service_events, List.append_assoc, phase3_events hu], ?_⟩
    rw [outputBits_append, requestCount_append, phase3_awaiting hu]
    cases u.outReady <;> cases u.inReady <;> cases s.awaiting <;> simp [outputBits, requestCount]

/-- Settles O38: the calls are those of the core's step, and the step boundary makes none. -/
theorem stepMakesAtMostOneCallOfEachKind : Obligations.StepMakesAtMostOneCallOfEachKind := by
  intro s t h
  obtain ⟨u, hu, rfl⟩ := step_cases s h
  obtain ⟨es, hes, hout, hreq, -⟩ := coreStep_events hu
  obtain ⟨fs, hfs, hout', hreq'⟩ := deviceTurn_events u
  refine ⟨es ++ fs, by rw [hfs, hes, List.append_assoc], ?_, ?_⟩
  · rwa [outputBits_append, hout', List.append_nil]
  · rwa [requestCount_append, hreq', Nat.add_zero]

/-- The service phase leads from `Consumed` to `AwaitingRead` and leaves the channel's other states (R180). -/
theorem channel_service (s : State) :
    s.service.channel = if s.channel = .consumed then .awaitingRead else s.channel := by
  have hready : s.service.inReady = s.inReady := (cell_service s 17).trans (if_neg (by decide))
  rw [State.channel, State.channel, service_awaiting, hready]
  cases s.awaiting <;> cases s.inReady <;> rfl

theorem channel_eq_consumed {s : State} : s.channel = .consumed ↔ s.inReady = false ∧ s.awaiting = false := by
  rw [State.channel]
  cases s.awaiting <;> cases s.inReady <;> decide

theorem channel_complete (s : State) (v : Bool) : (s.complete v).channel = .idle := by
  rw [State.channel, complete_awaiting, State.inReady, cell_complete]
  rfl

/-- Settles O35, row by row of R180's table. -/
theorem inputChannelFollowsItsTable : Obligations.InputChannelFollowsItsTable := by
  refine fun s b v => ⟨?write, channel_service s, fun hafter hbefore => ?asked, channel_complete s v⟩
  case write =>
    rw [State.channel, setCell_awaiting, State.inReady, cell_setCell_self s (by decide)]
    cases s.awaiting <;> cases b <;> rfl
  case asked =>
    rw [channel_service] at hafter
    by_cases hconsumed : s.channel = .consumed
    · exact channel_eq_consumed.mp hconsumed
    · rw [if_neg hconsumed] at hafter
      exact absurd hafter hbefore

/-- With no request outstanding a series of step boundaries only moves the device on (R178). -/
theorem iterate_deviceTurn_unasked (n : Nat) {s : State} (ha : s.awaiting = false) :
    (State.deviceTurn^[n] s).regs = s.regs ∧ (State.deviceTurn^[n] s).awaiting = false ∧
      (State.deviceTurn^[n] s).events = s.events := by
  induction n generalizing s with
  | zero => exact ⟨rfl, ha, rfl⟩
  | succ n ih =>
    rw [Function.iterate_succ_apply, deviceTurn_quiet s (.inl ha)]
    exact ih (s := s.deviceMoved) ha

/-- Settles O29: after a halt or a fault there are only step boundaries, each of which can but complete a request. -/
theorem terminalStatesAreNeverLeft : Obligations.TerminalStatesAreNeverLeft := by
  refine ⟨fun s n hs => ?boundaries, fun s v hs ha hd => ?completes⟩
  case boundaries =>
    have hstatus := iterate_deviceTurn_keeps deviceTurn_status n s
    refine ⟨_, run_stopped hs n, hstatus, by rw [State.result, hstatus, State.result], fun c h16 h17 => ?_,
      iterate_deviceTurn_keeps (f := (outputBits ·.events)) outputBits_deviceTurn n s,
      iterate_deviceTurn_keeps (f := (requestCount ·.events)) requestCount_deviceTurn n s,
      iterate_deviceTurn_unasked n⟩
    exact iterate_deviceTurn_keeps (f := (State.cell · c)) (fun s => cell_deviceTurn s h16 h17) n s
  case completes =>
    obtain ⟨hready, hbit, hdone⟩ := deviceTurn_delivers hd ha
    exact ⟨_, step_of_coreStep s (coreStep_stopped hs), hbit, hready, hdone⟩

end Sys2Proof.Machine

/-! PROOFS. The configuration (70_reset_and_hazards.md R202): no step, and no number of steps, changes it. -/

namespace Sys2Proof.Machine

/-- Phases 4 and 5 leave the configuration. -/
theorem finishStep_config (u : State) (oldPc : Word) :
    (u.finishStep oldPc).rom = u.rom ∧ (u.finishStep oldPc).paging = u.paging := by
  obtain ⟨-, -, h⟩ | ⟨-, h⟩ | ⟨-, h⟩ := finishStep_cases u oldPc <;> rw [h]
  · exact ⟨rfl, rfl⟩
  · exact ⟨halt_rom u, halt_paging u⟩
  · exact ⟨service_rom u, service_paging u⟩

theorem coreStep_config {s t : State} (h : coreStep s = .next t) : t.rom = s.rom ∧ t.paging = s.paging := by
  obtain ⟨-, rfl⟩ | ⟨-, -, rfl⟩ | ⟨w, u, -, -, hx, rfl⟩ := coreStep_cases s h
  · exact ⟨rfl, rfl⟩
  · exact ⟨rfl, rfl⟩
  · obtain ⟨-, hrom, hpaging, -, -⟩ := exec_fields hx
    obtain ⟨hrom', hpaging'⟩ := finishStep_config u s.pc
    exact ⟨hrom'.trans hrom, hpaging'.trans hpaging⟩

theorem step_config {s t : State} (h : step s = .next t) : t.rom = s.rom ∧ t.paging = s.paging := by
  obtain ⟨u, hu, rfl⟩ := step_cases s h
  rw [deviceTurn_rom, deviceTurn_paging]
  exact coreStep_config hu

/-- What every step keeps, every run keeps. -/
theorem run_keeps {P : State → Prop} (hstep : ∀ s t : State, P s → step s = .next t → P t) {n : Nat} {s t : State}
    (hs : P s) (h : Host.Core.run Sys2Proof.core n s = .next t) : P t := by
  induction n generalizing s with
  | zero =>
    obtain rfl : s = t := Host.Outcome.next.inj h
    exact hs
  | succ n ih =>
    obtain ⟨u, hu, hrun⟩ := run_cases s n h
    exact ih (hstep s u hs hu) hrun

/-- Settles O46: the configuration is that of the first state at every step of the run. -/
theorem configurationNeverChanges : Obligations.ConfigurationNeverChanges := by
  intro n s t h
  refine run_keeps (P := fun u => u.rom = s.rom ∧ u.paging = s.paging) (fun u v hu hv => ?_) ⟨rfl, rfl⟩ h
  obtain ⟨hrom, hpaging⟩ := step_config hv
  exact ⟨hrom.trans hu.1, hpaging.trans hu.2⟩

end Sys2Proof.Machine

/-! PROOFS. The step refines R111's pseudocode (40_cycle.md): each operation of Machine/Pseudocode.lean on the model's cells is
the model's own operation, and so is each branch of `step()`. -/

namespace Sys2Proof.Machine

theorem ruleWord_cell (s : State) (a : Nat) : ruleWord s.cell a = (s.readWord a).toNat := (toNat_readWord s a).symm

theorem ruleSetWord_cell (s : State) {a : Nat} (v : Word) (ha : a ≤ 127) :
    ruleSetWord s.cell a v.toNat = (s.writeWord a v).cell := by
  funext c
  rw [ruleSetWord, cell_writeWord]
  by_cases hc : a ≤ c ∧ c ≤ a + 15
  · rw [if_pos hc, if_pos (by omega), BitVec.testBit_toNat, BitVec.getMsbD]
    simp [show c - a < 16 by omega]
  · rw [if_neg hc, if_neg (by omega)]

theorem ruleSetBit_cell (s : State) {i : Nat} (b : Bool) (hi : i < 143) :
    ruleSetBit s.cell i b = (s.setCell i b).cell := by
  funext c
  simp [ruleSetBit, cell_setCell, hi]

/-- The page of R122's formula is the model's with the decided parameters (D6). -/
theorem ruleEffIdx_cell (s : State) (a : Addr) : ruleEffIdx s.cell s.paging a.toNat = s.effIdx a := by
  rw [ruleEffIdx, ruleWord_cell]
  rfl

theorem ruleRom_of_read {m : Memory} {i : Nat} {w : Word} (h : m.read i = some w) : m.ruleRom i = w.toNat := by
  rw [Memory.ruleRom, h, Option.getD_some]

/-- Phase 1 of R111, the sum taken modulo 65536. -/
theorem rulePhase1_cell (s : State) : ruleSetWord s.cell 0 ((s.pc.toNat + 1) % 65536) = s.advancePc.cell := by
  have hsum : (s.pc.toNat + 1) % 65536 = (s.pc + 1#16).toNat := (BitVec.toNat_add s.pc 1#16).symm
  rw [hsum, ruleSetWord_cell s _ (by decide)]
  rfl

/-- The output line of R111 is the model's output service. -/
theorem ruleOutput_ruleState (s : State) : ruleOutput s.ruleState = s.outputService.ruleState := by
  by_cases h : s.outReady = true
  · have hx : s.ruleState.x 19 = true := h
    rw [ruleOutput, if_pos hx, State.outputService, if_pos h]
    exact congrArg (fun x => { s.ruleState with x := x, calls := s.events ++ [Event.output s.outBit] })
      (ruleSetBit_cell s (i := 19) false (by decide))
  · have hx : ¬ s.ruleState.x 19 = true := h
    rw [ruleOutput, if_neg hx, State.outputService, if_neg h]

/-- The input line of R111 is the model's input service. -/
theorem ruleInput_ruleState (s : State) : ruleInput s.ruleState = s.inputService.ruleState := by
  have hcond : (!s.ruleState.x 17 && !s.ruleState.awaiting) = true ↔ s.inReady = false ∧ s.awaiting = false := by
    rw [Bool.and_eq_true, Bool.not_eq_true', Bool.not_eq_true']
    rfl
  by_cases h : s.inReady = false ∧ s.awaiting = false
  · rw [ruleInput, if_pos (hcond.mpr h), State.inputService, if_pos h]
    rfl
  · rw [ruleInput, if_neg (mt hcond.mp h), State.inputService, if_neg h]

/-- The last lines of R111, from the halt check on, are phases 4 and 5. -/
theorem ruleFinish_ruleState {u : State} (hu : u.status = .running) (oldPc : Word) :
    (if ruleWord u.ruleState.x 0 = oldPc.toNat then ({ u.ruleState with status := .halted }, StepResult.halted)
      else (ruleInput (ruleOutput u.ruleState), .continued)) =
      ((u.finishStep oldPc).ruleState, (u.finishStep oldPc).result) := by
  have hpc : ruleWord u.ruleState.x 0 = u.pc.toNat := ruleWord_cell u 0
  by_cases hback : u.pc = oldPc
  · rw [hpc, if_pos (congrArg _ hback), finishStep_halt u oldPc hu hback]
    rfl
  · rw [hpc, if_neg (mt BitVec.eq_of_toNat_eq hback), finishStep_service u oldPc hu hback, ruleOutput_ruleState,
      ruleInput_ruleState, State.result, service_status, hu]
    rfl

/-- The `case OP of` lines of R111 are the meaning of the decoded instruction, where it raises no fault. -/
theorem ruleExec_cell {w : Word} {s u : State} (hx : exec (decode w) s = .next u) (hu : u.status = .running) :
    ruleExec s.rom.ruleRom (s.effIdx (fieldA w)) (fieldOp w).toNat (fieldA w).toNat (fieldB w).toNat s.cell = u.cell := by
  have hb := addr_lt (fieldB w)
  rcases fieldOp_values (fieldOp w) with hop | hop | hop | hop <;> simp only [decode, hop] at hx <;>
    simp only [hop, ruleExec]
  · cases hx
    rw [if_pos (by decide), ruleWord_cell, ruleSetWord_cell s _ (by omega)]
    rfl
  · cases hread : s.rom.read (s.effIdx (fieldA w)) with
    | none =>
      rw [execLoad_none hread] at hx
      cases hx
      cases hu
    | some v =>
      rw [execLoad_some hread] at hx
      cases hx
      rw [if_neg (by decide), if_pos (by decide), ruleRom_of_read hread, ruleSetWord_cell s _ (by omega)]
      rfl
  · cases hx
    rw [if_neg (by decide), if_neg (by decide), if_pos (by decide), ruleSetBit_cell s _ (by omega)]
    rfl
  · cases hx
    rw [if_neg (by decide), if_neg (by decide), if_neg (by decide), ruleSetBit_cell s _ (by omega), putBit_eq, xorGate_eq]
    rfl

/-- `OP` is 1 exactly for a `load` (R82). -/
theorem fieldOp_toNat_eq_one {w : Word} : (fieldOp w).toNat = 1 ↔ decode w = .load (fieldA w) (fieldB w) := by
  rcases fieldOp_values (fieldOp w) with hop | hop | hop | hop <;> simp [decode, hop]

/-- An instruction changes nothing that R111 sees but the cells, where it raises no fault. -/
theorem ruleState_of_exec {i : Instr} {s u : State} (hx : exec i s = .next u) (hstatus : u.status = s.status) :
    { s.ruleState with x := u.cell } = u.ruleState := by
  obtain ⟨hawaiting, -, -, -, hevents⟩ := exec_fields hx
  simp only [State.ruleState, hawaiting, hevents, hstatus]

/-- R111 with no ROM word at the PC. -/
theorem ruleStep_noFetch {s : State} (hs : s.status = .running) (hf : s.rom.len ≤ s.pc.toNat) :
    ruleStep s.rom.ruleRom s.rom.len s.paging s.ruleState =
      ((s.advancePc.raiseFault (.fetchOutOfRange s.pc)).ruleState, .fault (.fetchOutOfRange s.pc)) := by
  have hpc : ruleWord s.cell 0 = s.pc.toNat := ruleWord_cell s 0
  simp only [ruleStep, State.ruleState, hs, hpc, rulePhase1_cell, if_pos hf, BitVec.ofNat_toNat, BitVec.setWidth_eq]
  rfl

/-- R111 with a fetched word, in terms of the state that phase 1 leaves. -/
theorem ruleStep_fetch {s : State} {w : Word} (hs : s.status = .running) (hf : s.fetch = some w) :
    ruleStep s.rom.ruleRom s.rom.len s.paging s.ruleState =
      if decode w = .load (fieldA w) (fieldB w) ∧ s.rom.len ≤ s.advancePc.effIdx (fieldA w) then
        ((s.advancePc.raiseFault (.loadOutOfRange (s.advancePc.effIdx (fieldA w)))).ruleState,
          .fault (.loadOutOfRange (s.advancePc.effIdx (fieldA w))))
      else
        let x := ruleExec s.rom.ruleRom (s.advancePc.effIdx (fieldA w)) (fieldOp w).toNat (fieldA w).toNat
          (fieldB w).toNat s.advancePc.cell
        if ruleWord x 0 = s.pc.toNat then ({ s.advancePc.ruleState with x := x, status := .halted }, .halted)
        else (ruleInput (ruleOutput { s.advancePc.ruleState with x := x }), .continued) := by
  have hpc : ruleWord s.cell 0 = s.pc.toNat := ruleWord_cell s 0
  have hidx : ruleEffIdx s.advancePc.cell s.paging (fieldA w).toNat = s.advancePc.effIdx (fieldA w) :=
    ruleEffIdx_cell s.advancePc _
  have hin : ¬ s.rom.len ≤ s.pc.toNat := Nat.not_le.mpr (read_eq_some.mp hf).1
  simp only [ruleStep, State.ruleState, hs, hpc, rulePhase1_cell, if_neg hin, ruleRom_of_read hf, ← toNat_fieldA,
    ← toNat_fieldB, ← toNat_fieldOp, hidx, fieldOp_toNat_eq_one, advancePc_awaiting, advancePc_status, advancePc_events,
    raiseFault_awaiting, raiseFault_status, raiseFault_events]
  rfl

/-- R111 with a fetched word is phases 3 to 5: the fault of a `load`, or the instruction's result finished. -/
theorem ruleStep_exec {s u : State} {w : Word} (hs : s.status = .running) (hf : s.fetch = some w)
    (hx : exec (decode w) s.advancePc = .next u) :
    ruleStep s.rom.ruleRom s.rom.len s.paging s.ruleState = ((u.finishStep s.pc).ruleState, (u.finishStep s.pc).result) := by
  rw [ruleStep_fetch hs hf]
  by_cases hfault : decode w = .load (fieldA w) (fieldB w) ∧ s.rom.len ≤ s.advancePc.effIdx (fieldA w)
  · obtain ⟨hload, hbeyond⟩ := hfault
    rw [hload, execLoad_none (read_eq_none.mpr hbeyond)] at hx
    cases hx
    rw [if_pos ⟨hload, hbeyond⟩, finishStep_faulted _ s.pc (raiseFault_status _ _)]
    rfl
  · have hkept : u.status = s.advancePc.status := by
      obtain hkept | ⟨a, b, hdec, hread, -⟩ := exec_status hx
      · exact hkept
      · have ha : fieldA w = a := by rw [← encode_decode w, hdec]; exact fieldA_packFields a b _
        have hb : fieldB w = b := by rw [← encode_decode w, hdec]; exact fieldB_packFields a b _
        exact absurd ⟨by rw [hdec, ha, hb], by rw [ha]; exact read_eq_none.mp hread⟩ hfault
    have hrun : u.status = .running := hkept.trans hs
    have hcells := ruleExec_cell hx hrun
    rw [advancePc_rom] at hcells
    rw [if_neg hfault, hcells, ← ruleFinish_ruleState hrun s.pc, ← ruleState_of_exec hx hkept]

/-- Settles O19, along the forms of a step of the core. -/
theorem coreStepRefinesTheSpecsStep : Obligations.CoreStepRefinesTheSpecsStep := by
  intro s hl
  obtain ⟨t, ht⟩ := coreStep_answers (.inl hl)
  obtain ⟨hrom, hpaging⟩ := coreStep_config ht
  refine ⟨t, ht, ?refines, hrom, hpaging, coreStep_inputDevice s ht⟩
  obtain ⟨hs, rfl⟩ | ⟨hs, hf, rfl⟩ | ⟨w, u, hs, hf, hx, rfl⟩ := coreStep_cases s ht
  · cases h : t.status with
    | running => exact absurd h hs
    | halted => simp only [ruleStep, State.ruleState, State.result, h]
    | faulted c => simp only [ruleStep, State.ruleState, State.result, h]
  · exact ruleStep_noFetch hs (read_eq_none.mp hf)
  · exact ruleStep_exec hs hf hx

end Sys2Proof.Machine

/-! PROOFS. The invariant (Safety.lean): the events as a legal handshake (10_state.md R37), kept by each phase that adds to
them. -/

namespace Sys2Proof.Machine

/-- A trace is followed event by event, so its parts are followed one after the other. -/
theorem outstandingAfter_append (o : Bool) (es fs : List Event) :
    outstandingAfter o (es ++ fs) = (outstandingAfter o es).bind (outstandingAfter · fs) := by
  induction es generalizing o with
  | nil => rfl
  | cons e rest ih => simp only [List.cons_append, outstandingAfter, Option.bind_assoc, ih]

/-- The handshake goes on with events that lead from the old AWAITING to the new one. -/
theorem handshakeOk_of_append {s t : State} {es : List Event} (h : s.handshakeOk) (hevents : t.events = s.events ++ es)
    (hafter : outstandingAfter s.awaiting es = some t.awaiting) : t.handshakeOk := by
  rw [State.handshakeOk] at h ⊢
  rw [hevents, outstandingAfter_append, h, Option.bind_some, hafter]

theorem handshakeOk_congr {s t : State} (hevents : t.events = s.events) (hawaiting : t.awaiting = s.awaiting)
    (h : s.handshakeOk) : t.handshakeOk := by
  rwa [State.handshakeOk, hevents, hawaiting]

/-- The service phase asks only where no request is outstanding, and then one is (R177). -/
theorem handshakeOk_service {u : State} (h : u.handshakeOk) : u.service.handshakeOk := by
  refine handshakeOk_of_append h (by rw [service_events, List.append_assoc]) ?_
  rw [service_awaiting]
  cases u.outReady <;> cases u.inReady <;> cases u.awaiting <;> rfl

/-- A completion lands only where a request is outstanding, and then none is (R178). -/
theorem handshakeOk_deviceTurn {u : State} (h : u.handshakeOk) : u.deviceTurn.handshakeOk := by
  obtain hquiet | ⟨v, -, ha, hlands⟩ := deviceTurn_cases u
  · rw [hquiet]
    exact handshakeOk_congr rfl rfl h
  · rw [hlands]
    refine handshakeOk_of_append h (es := [.inputCompletion v]) rfl ?_
    rw [ha]
    rfl

/-- Every step of the core keeps the handshake: only its service phase adds to it. -/
theorem handshakeOk_coreStep {s t : State} (h : s.handshakeOk) (ht : coreStep s = .next t) : t.handshakeOk := by
  obtain ⟨hevents, hawaiting⟩ | ⟨u, hu, rfl⟩ := coreStep_calls ht
  · exact handshakeOk_congr hevents hawaiting h
  · exact handshakeOk_service (handshakeOk_congr (phase3_events hu) (phase3_awaiting hu) h)

/-- A step of the core that goes on has been served. -/
theorem coreStep_running {s t : State} (h : coreStep s = .next t) (hrun : t.status = .running) :
    ∃ u : State, t = u.service := by
  obtain ⟨hs, rfl⟩ | ⟨-, -, rfl⟩ | ⟨w, u, -, -, -, rfl⟩ := coreStep_cases s h
  · exact absurd hrun hs
  · cases hrun
  · obtain ⟨c, hc, hkept⟩ | ⟨-, hhalt⟩ | ⟨-, hserved⟩ := finishStep_cases u s.pc
    · rw [hkept, hc] at hrun
      cases hrun
    · rw [hhalt] at hrun
      cases hrun
    · exact ⟨u, hserved⟩

theorem outReady_service (u : State) : u.service.outReady = false := (cell_service u 19).trans (if_pos rfl)

theorem channel_service_ne_consumed (u : State) : u.service.channel ≠ .consumed := by
  rw [channel_service]
  split
  · decide
  · assumption

/-- The step boundary keeps the invariant: it writes no output cell, and a completion leaves the channel `Idle`. -/
theorem inv_deviceTurn {u : State} (h : u.Inv) : u.deviceTurn.Inv where
  romWf := by rw [deviceTurn_rom]; exact h.romWf
  handshake := handshakeOk_deviceTurn h.handshake
  sent hrun := by
    rw [deviceTurn_status] at hrun
    exact (cell_deviceTurn u (by decide) (by decide)).trans (h.sent hrun)
  asked hrun := by
    rw [deviceTurn_status] at hrun
    obtain hquiet | ⟨v, -, -, hlands⟩ := deviceTurn_cases u
    · rw [hquiet]
      exact h.asked hrun
    · rw [hlands, channel_complete]
      decide

/-- Settles O45: a step of the core that goes on ends in a service phase, which leaves nothing to send or to ask. -/
theorem stepKeepsTheInvariant : Obligations.StepKeepsTheInvariant := by
  intro s t h ht
  obtain ⟨u, hu, rfl⟩ := step_cases s ht
  refine inv_deviceTurn
    { romWf := by rw [(coreStep_config hu).1]; exact h.romWf
      handshake := handshakeOk_coreStep h.handshake hu
      sent := fun hrun => ?sent
      asked := fun hrun => ?asked }
  case sent =>
    obtain ⟨v, rfl⟩ := coreStep_running hu hrun
    exact outReady_service v
  case asked =>
    obtain ⟨v, rfl⟩ := coreStep_running hu hrun
    exact channel_service_ne_consumed v

/-- The state of R41 with its construction-time request outstanding meets the invariant. -/
theorem inv_constructed {rom : Memory} (hrom : rom.wf = true) (paging : Bool) (device : Config.InputDevice) :
    (State.constructed rom paging device).Inv where
  romWf := hrom
  handshake := rfl
  sent _ := cell_constructed rom paging device 19
  asked _ h := by cases h

/-- Construction answers a state only from a well-formed ROM and both devices (R166, R200). -/
theorem construct_cases {c : Config.Construction} {s : State} (h : construct c = .next s) :
    ∃ d, s = (State.constructed (Memory.ofWords (c.rom.map (BitVec.ofNat 16))) c.paging d).deviceTurn := by
  unfold construct at h
  split at h
  · split at h
    · rename_i d _ _ _
      exact ⟨d, (Host.Outcome.next.inj h).symm⟩
    · cases h
  · cases h

/-- Settles O44: construction is the state of R41 and a step boundary. -/
theorem constructedStatesMeetTheInvariant : Obligations.ConstructedStatesMeetTheInvariant := by
  refine ⟨inv_constructed empty_wf _ _, fun c s h => ?_⟩
  obtain ⟨d, rfl⟩ := construct_cases h
  exact inv_deviceTurn (inv_constructed (ofWords_wf _) _ d)

end Sys2Proof.Machine

/-! PROOFS. Hidden cells (10_state.md R33): states that differ in cells from 128 on only are kept so by every operation of a
step without PAGING. -/

namespace Sys2Proof.Machine

/-- `t` is `s` but for hidden cells. -/
def State.SameVisible (s t : State) : Prop := s.SameBut t (fun c => 128 ≤ c)

namespace State.SameVisible

variable {s t : State}

theorem cell (h : s.SameVisible t) {c : Nat} (hc : c < 128) : t.cell c = s.cell c := h.cells c (Nat.not_le.mpr hc)

theorem readWord (h : s.SameVisible t) {a : Nat} (ha : a ≤ 112) : t.readWord a = s.readWord a :=
  readWord_congr fun _ _ => h.cell (by omega)

theorem pc (h : s.SameVisible t) : t.pc = s.pc := h.readWord (by decide)

theorem fetch (h : s.SameVisible t) : t.fetch = s.fetch := by
  rw [State.fetch, State.fetch, h.rom, h.pc]

/-- Without PAGING the effective index is the operand. -/
theorem effIdx (h : s.SameVisible t) (hp : s.paging = false) (a : Addr) : t.effIdx a = s.effIdx a := by
  rw [effIdx_unpaged hp, effIdx_unpaged (h.paging.trans hp)]

theorem writeWord (h : s.SameVisible t) (a : Nat) (v : Word) : (s.writeWord a v).SameVisible (t.writeWord a v) :=
  { h with cells := fun c hc => by rw [cell_writeWord, cell_writeWord, h.cells c hc] }

theorem setCell (h : s.SameVisible t) (i : Nat) (b : Bool) : (s.setCell i b).SameVisible (t.setCell i b) :=
  { h with cells := fun c hc => by rw [cell_setCell, cell_setCell, h.cells c hc] }

theorem emit (h : s.SameVisible t) (e : Event) : (s.emit e).SameVisible (t.emit e) :=
  { h with events := congrArg (· ++ [e]) h.events }

theorem raiseFault (h : s.SameVisible t) (c : Fault) : (s.raiseFault c).SameVisible (t.raiseFault c) :=
  { h with status := rfl }

theorem halt (h : s.SameVisible t) : s.halt.SameVisible t.halt := { h with status := rfl }

theorem withAwaiting (h : s.SameVisible t) (b : Bool) :
    ({ s with awaiting := b } : State).SameVisible { t with awaiting := b } := { h with awaiting := rfl }

theorem advancePc (h : s.SameVisible t) : s.advancePc.SameVisible t.advancePc := by
  rw [State.advancePc, State.advancePc, h.pc]
  exact h.writeWord _ _

theorem outputService (h : s.SameVisible t) : s.outputService.SameVisible t.outputService := by
  have hready : t.outReady = s.outReady := h.cell (by decide)
  have hbit : t.outBit = s.outBit := h.cell (by decide)
  unfold State.outputService
  rw [hready, hbit]
  split
  · exact (h.emit _).setCell _ _
  · exact h

theorem inputService (h : s.SameVisible t) : s.inputService.SameVisible t.inputService := by
  have hready : t.inReady = s.inReady := h.cell (by decide)
  unfold State.inputService
  rw [hready, h.awaiting]
  split
  · exact (h.withAwaiting true).emit _
  · exact h

theorem service (h : s.SameVisible t) : s.service.SameVisible t.service := h.outputService.inputService

theorem finishStep (h : s.SameVisible t) (oldPc : Word) : (s.finishStep oldPc).SameVisible (t.finishStep oldPc) := by
  unfold State.finishStep
  rw [h.status, h.pc]
  split
  · exact h
  · split
    · exact h.halt
    · exact h.service

theorem deviceMoved (h : s.SameVisible t) : s.deviceMoved.SameVisible t.deviceMoved :=
  { h with inputDevice := by rw [deviceMoved_inputDevice, deviceMoved_inputDevice, h.inputDevice, h.awaiting] }

theorem complete (h : s.SameVisible t) (v : Bool) : (s.complete v).SameVisible (t.complete v) :=
  (((h.setCell _ v).setCell _ true).withAwaiting false).emit _

theorem deviceTurn (h : s.SameVisible t) : s.deviceTurn.SameVisible t.deviceTurn := by
  unfold State.deviceTurn
  rw [h.inputDevice, h.awaiting]
  split
  · split
    · exact h.deviceMoved.complete _
    · exact h.deviceMoved
  · exact h.deviceMoved

/-- An instruction that reads no hidden cell, in a state without PAGING, keeps two such states alike. -/
theorem exec {i : Instr} {u : State} (h : s.SameVisible t) (hp : s.paging = false)
    (hcopy : ∀ a b, i = .copy a b → a.toNat ≤ 112) (hx : Machine.exec i s = .next u) :
    ∃ u', Machine.exec i t = .next u' ∧ u.SameVisible u' := by
  have hbit : ∀ a : Addr, t.cell a.toNat = s.cell a.toNat := fun a => h.cell (addr_lt a)
  obtain ⟨a, b, rfl, rfl⟩ | ⟨a, b, v, rfl, hread, rfl⟩ | ⟨a, b, rfl, hread, rfl⟩ | ⟨a, b, rfl, rfl⟩ |
    ⟨a, b, rfl, rfl⟩ := exec_cases hx
  · refine ⟨_, exec_copy a b t, ?_⟩
    rw [h.readWord (hcopy a b rfl)]
    exact h.writeWord _ _
  · exact ⟨_, execLoad_some (by rw [h.effIdx hp, h.rom, hread]), h.writeWord _ _⟩
  · refine ⟨_, execLoad_none (by rw [h.effIdx hp, h.rom, hread]), ?_⟩
    rw [h.effIdx hp]
    exact h.raiseFault _
  · refine ⟨_, exec_nand a b t, ?_⟩
    rw [hbit a, hbit b]
    exact h.setCell _ _
  · refine ⟨_, exec_xor a b t, ?_⟩
    rw [hbit a, hbit b]
    exact h.setCell _ _

/-- A step of the core keeps two such states alike. -/
theorem coreStep {u : State} (h : s.SameVisible t) (hp : s.paging = false)
    (hcopy : ∀ w a b, s.fetch = some w → decode w = .copy a b → a.toNat ≤ 112) (hu : Machine.coreStep s = .next u) :
    ∃ u', Machine.coreStep t = .next u' ∧ u.SameVisible u' := by
  obtain ⟨hs, rfl⟩ | ⟨hs, hf, rfl⟩ | ⟨w, v, hs, hf, hx, rfl⟩ := coreStep_cases s hu
  · exact ⟨t, coreStep_stopped (by rwa [h.status]), h⟩
  · have hl : s.rom.len ≠ 0 := rom_len_ne_zero_of_coreStep hs hu
    refine ⟨_, coreStep_noFetch t (h.status.trans hs) (by rwa [h.rom]) (h.fetch.trans hf), ?_⟩
    rw [h.pc]
    exact h.advancePc.raiseFault _
  · obtain ⟨v', hx', hv⟩ := h.advancePc.exec ((advancePc_paging s).trans hp) (fun a b => hcopy w a b hf) hx
    refine ⟨_, coreStep_fetch t (h.status.trans hs) (h.fetch.trans hf) hx', ?_⟩
    rw [h.pc]
    exact hv.finishStep _

end State.SameVisible

/-- Settles O48: the core's step and the step boundary each keep the two states alike. -/
theorem hiddenCellsMatterOnlyToPaging : Obligations.HiddenCellsMatterOnlyToPaging := by
  intro s s' t h hp hcopy ht
  obtain ⟨u, hu, rfl⟩ := step_cases s ht
  obtain ⟨u', hu', hsame⟩ := State.SameVisible.coreStep h hp hcopy hu
  exact ⟨_, step_of_coreStep s' hu', hsame.deviceTurn⟩

end Sys2Proof.Machine

/-! PROOFS. The input device (40_cycle.md R112): no phase of the core's step reads it. -/

namespace Sys2Proof.Machine

/-- The same state with another input device. -/
def State.withDevice (s : State) (q : Config.InputDevice) : State := { s with inputDevice := q }

theorem exec_withDevice {i : Instr} {s t : State} (q : Config.InputDevice) (h : exec i s = .next t) :
    exec i (s.withDevice q) = .next (t.withDevice q) := by
  obtain ⟨a, b, rfl, rfl⟩ | ⟨a, b, v, rfl, hread, rfl⟩ | ⟨a, b, rfl, hread, rfl⟩ | ⟨a, b, rfl, rfl⟩ |
    ⟨a, b, rfl, rfl⟩ := exec_cases h
  · rfl
  · exact execLoad_some (s := s.withDevice q) hread
  · exact execLoad_none (s := s.withDevice q) hread
  · rfl
  · rfl

theorem outputService_withDevice (s : State) (q : Config.InputDevice) :
    (s.withDevice q).outputService = s.outputService.withDevice q := by
  unfold State.outputService
  rw [apply_ite (State.withDevice · q)]
  rfl

theorem inputService_withDevice (s : State) (q : Config.InputDevice) :
    (s.withDevice q).inputService = s.inputService.withDevice q := by
  unfold State.inputService
  rw [apply_ite (State.withDevice · q)]
  rfl

theorem service_withDevice (s : State) (q : Config.InputDevice) : (s.withDevice q).service = s.service.withDevice q := by
  rw [State.service, outputService_withDevice, inputService_withDevice, State.service]

theorem finishStep_withDevice (s : State) (q : Config.InputDevice) (oldPc : Word) :
    (s.withDevice q).finishStep oldPc = (s.finishStep oldPc).withDevice q := by
  have hstatus : (s.withDevice q).status = s.status := rfl
  have hpc : (s.withDevice q).pc = s.pc := rfl
  unfold State.finishStep
  simp only [hstatus, hpc]
  split
  · rfl
  · rw [service_withDevice, apply_ite (State.withDevice · q)]
    rfl

/-- Settles O39: along the forms of a step of the core. -/
theorem coreStepIgnoresTheInputDevice : Obligations.CoreStepIgnoresTheInputDevice := by
  intro s t q ht
  have hcore : coreStep (s.withDevice q) = .next (t.withDevice q) := by
    obtain ⟨hs, rfl⟩ | ⟨hs, hf, rfl⟩ | ⟨w, u, hs, hf, hx, rfl⟩ := coreStep_cases s ht
    · exact coreStep_stopped hs
    · have hl : s.rom.len ≠ 0 := rom_len_ne_zero_of_coreStep hs ht
      exact coreStep_noFetch (s.withDevice q) hs hl hf
    · rw [← finishStep_withDevice]
      exact coreStep_fetch (s.withDevice q) hs hf (exec_withDevice q hx)
  exact ⟨hcore, step_of_coreStep _ hcore⟩

end Sys2Proof.Machine

/-! PROOFS. Construction (70_reset_and_hazards.md R200, 60_exceptions.md R166), and the ROM it is given or a loader places
(20_memory.md R58). -/

namespace Sys2Proof.Machine

theorem pc_constructed (rom : Memory) (paging : Bool) (device : Config.InputDevice) :
    (State.constructed rom paging device).pc = 0#16 :=
  word_ext fun k hk => by rw [State.pc, getMsbD_readWord _ _ hk, cell_constructed, BitVec.getMsbD_zero]

/-- Settles O40: the state of R41 and then the device's turn, which completes the construction-time request or lets it be. -/
theorem constructionReachesTheResetState : Obligations.ConstructionReachesTheResetState := by
  intro c d o hrom hin hout
  refine ⟨_, construct_eq_next hrom hin hout, ?_⟩
  generalize Memory.ofWords (c.rom.map (BitVec.ofNat 16)) = rom
  refine ⟨(pc_deviceTurn _).trans (pc_constructed rom c.paging d), deviceTurn_status _,
    fun i h16 h17 => (cell_deviceTurn _ h16 h17).trans (cell_constructed rom c.paging d i), fun v hdue => ?completed,
    fun hquiet => ?outstanding, requestCount_deviceTurn _, outputBits_deviceTurn _, deviceTurn_paging _, deviceTurn_rom _⟩
  case completed =>
    obtain ⟨hready, hbit, hdone⟩ := deviceTurn_delivers (s := State.constructed rom c.paging d) hdue rfl
    exact ⟨hbit, hready, hdone⟩
  case outstanding =>
    rw [deviceTurn_quiet (State.constructed rom c.paging d) (.inr hquiet)]
    exact ⟨cell_constructed rom c.paging d 16, cell_constructed rom c.paging d 17, rfl⟩

theorem romWellFormed_eq_false {rom : List Nat} (h : rom = [] ∨ ∃ v ∈ rom, 65536 ≤ v) : romWellFormed rom = false := by
  obtain rfl | ⟨v, hv, hwide⟩ := h
  · rfl
  · rw [romWellFormed, Bool.and_eq_false_iff]
    exact .inr (List.all_eq_false.mpr ⟨v, hv, by simpa using hwide⟩)

/-- A malformed ROM is refused whatever the devices are (entry 8). -/
theorem construct_badRom {c : Config.Construction} (h : romWellFormed c.rom = false) :
    construct c = .refused (.noCore .invalidRom) := by
  simp [construct, h]

theorem construct_noDevice {c : Config.Construction} (hrom : romWellFormed c.rom = true)
    (h : c.input = none ∨ c.output = none) : construct c = .refused (.noCore .invalidDevice) := by
  obtain h | h := h
  · simp [construct, hrom, h]
  · cases hin : c.input <;> simp [construct, hrom, h, hin]

/-- Settles O41: the ROM is validated first, so an absent device is named only where the ROM is well formed. -/
theorem constructionRefusesBadConfigurations : Obligations.ConstructionRefusesBadConfigurations := by
  refine fun c => ⟨fun hbad => ?rom, fun habsent => ⟨?someError, fun hrom => construct_noDevice hrom habsent⟩⟩
  case rom =>
    have hrefused := construct_badRom (romWellFormed_eq_false hbad)
    exact ⟨⟨_, hrefused⟩, fun _ => hrefused⟩
  case someError =>
    cases hrom : romWellFormed c.rom with
    | false => exact ⟨_, construct_badRom hrom⟩
    | true => exact ⟨_, construct_noDevice hrom habsent⟩

/-- The list made from a sequence names each of its words, an unlisted one by leaving it out (entry 1). -/
theorem lookup_listed (base : Nat) (ws : List Word) (i : Nat) :
    Memory.lookup (Memory.listed base ws) (base + i) = ws[i]?.getD Memory.unlisted := by
  induction ws generalizing base i with
  | nil => simp [Memory.listed, Memory.lookup]
  | cons w rest ih =>
    rw [Memory.listed]
    cases i with
    | zero =>
      by_cases hw : w = Memory.unlisted
      · simp [hw, lookup_below (wfFrom_listed (base + 1) rest) (Nat.lt_succ_self base)]
      · simp [hw, Memory.lookup]
    | succ i =>
      have hrest := ih (base + 1) i
      rw [Nat.add_right_comm] at hrest
      by_cases hw : w = Memory.unlisted
      · simp [hw, ← Nat.add_assoc, hrest]
      · simp [hw, Memory.lookup, ← Nat.add_assoc, hrest, show base ≠ base + i + 1 by omega]

/-- Settles O42: below the length the listed words give the sequence back, and beyond it there is no ROM word. -/
theorem romHoldsTheSequenceGiven : Obligations.RomHoldsTheSequenceGiven := by
  intro ws i
  have hlookup := lookup_listed 0 ws i
  rw [Nat.zero_add] at hlookup
  by_cases hi : i < ws.length
  · rw [List.getElem?_eq_getElem hi, Option.getD_some] at hlookup
    rw [List.getElem?_eq_getElem hi, read_eq_some]
    exact ⟨hi, hlookup⟩
  · rw [List.getElem?_eq_none (Nat.le_of_not_lt hi), read_eq_none]
    exact Nat.le_of_not_lt hi

/-- A table number that decodes is that of one 16-bit word, cut to `nbits` (R81, entry 17). -/
theorem decode_of_decodeTableWord {nbits w : Nat} {i : Instr} (h : decodeTableWord nbits w = some i) :
    decode (BitVec.ofNat 16 (w % 2 ^ nbits)) = i := by
  unfold decodeTableWord tableWord at h
  split at h
  · exact Option.some.inj h
  · cases h

/-- Settles O43: the placement changes the ROM at the PC alone, and no cell, so the PC stays where the word is. -/
theorem placedWordIsFetchedNext : Obligations.PlacedWordIsFetchedNext := by
  intro s nbits w i hwf hdec
  exact ⟨_, read_place_self hwf s.pc.toNat _, decode_of_decodeTableWord hdec, rfl, place_wf hwf _ _, rfl, rfl, rfl, rfl,
    fun j hj hl => read_place_ne hwf _ hj hl⟩

end Sys2Proof.Machine

/-! PROOFS. The pseudo-instructions (30_encoding.md R90): their expansions, one meaning after the other. -/

namespace Sys2Proof.Machine

theorem execAll_one {i : Instr} {s t : State} (h : exec i s = .next t) : execAll [i] s = .next t := by
  simp only [execAll, h]

theorem execAll_two {i j : Instr} {s t u : State} (hi : exec i s = .next t) (hj : exec j t = .next u) :
    execAll [i, j] s = .next u := by
  simp only [execAll, hi, hj]

/-- Two changes of the same cells are one. -/
theorem State.SameBut.trans {s t u : State} {written : Nat → Prop} (h : s.SameBut t written) (h' : t.SameBut u written) :
    s.SameBut u written where
  cells c hc := (h'.cells c hc).trans (h.cells c hc)
  awaiting := h'.awaiting.trans h.awaiting
  status := h'.status.trans h.status
  rom := h'.rom.trans h.rom
  paging := h'.paging.trans h.paging
  inputDevice := h'.inputDevice.trans h.inputDevice
  events := h'.events.trans h.events

/-- XOR of a cell with itself clears it (R90, `clr`). -/
theorem exec_xor_self (b : Addr) (s : State) :
    ∃ t : State, exec (.xor b b) s = .next t ∧ t.cell b.toNat = false ∧ s.SameBut t (fun c => c = b.toNat) := by
  obtain ⟨t, ht, hcell, hframe⟩ := xorWritesItsDestinationCell b b s
  exact ⟨t, ht, by rw [hcell, Bool.xor_self], hframe⟩

/-- NAND of a cell with itself inverts it (R90, `not`). -/
theorem exec_nand_self (b : Addr) (s : State) :
    ∃ t : State, exec (.nand b b) s = .next t ∧ t.cell b.toNat = (!s.cell b.toNat) ∧
      s.SameBut t (fun c => c = b.toNat) := by
  obtain ⟨t, ht, hcell, hframe⟩ := nandWritesItsDestinationCell b b s
  exact ⟨t, ht, by rw [hcell, Bool.and_self], hframe⟩

/-- A word copied onto itself changes nothing (R90, `nop`). -/
theorem exec_copy_self (a : Addr) (s : State) :
    ∃ t : State, exec (.copy a a) s = .next t ∧ s.SameBut t (fun _ => False) := by
  obtain ⟨t, ht, -, -, hframe, hsame⟩ := copyMovesTheWholeWord a a s
  exact ⟨t, ht, { hframe with cells := fun c _ => hsame rfl c }⟩

/-- Settles O49, an expansion at a time. -/
theorem pseudoInstructionsHaveTheirEffects : Obligations.PseudoInstructionsHaveTheirEffects := by
  intro s a b n
  refine ⟨?not, ?clr, ?set, fun hne => ?mov1, ?nop, ?jmpr, fun hstored => ?jmp, fun hmissing => ?jmpFault⟩
  case not =>
    obtain ⟨t, ht, heffect⟩ := exec_nand_self b s
    exact ⟨t, execAll_one ht, heffect⟩
  case clr =>
    obtain ⟨t, ht, heffect⟩ := exec_xor_self b s
    exact ⟨t, execAll_one ht, heffect⟩
  case set =>
    obtain ⟨t, ht, hclear, hframe⟩ := exec_xor_self b s
    obtain ⟨u, hu, hset, hframe'⟩ := exec_nand_self b t
    exact ⟨u, execAll_two ht hu, by rw [hset, hclear]; rfl, hframe.trans hframe'⟩
  case mov1 =>
    have hab : a.toNat ≠ b.toNat := fun h => by simp [Pseudo.condition, BitVec.eq_of_toNat_eq h] at hne
    obtain ⟨t, ht, hclear, hframe⟩ := exec_xor_self b s
    obtain ⟨u, hu, hmoved, hframe'⟩ := xorWritesItsDestinationCell a b t
    exact ⟨u, execAll_two ht hu, by rw [hmoved, hclear, hframe.cells _ hab, Bool.xor_false], hframe.trans hframe'⟩
  case nop =>
    obtain ⟨t, ht, hframe⟩ := exec_copy_self 20 s
    exact ⟨t, execAll_one ht, hframe⟩
  case jmpr => exact ⟨_, execAll_one (exec_copy a 0 s), pc_writeWord_zero s _⟩
  case jmp =>
    obtain ⟨v, hread⟩ := Option.isSome_iff_exists.mp hstored
    exact ⟨v, _, hread, execAll_one (execLoad_some hread), pc_writeWord_zero s v⟩
  case jmpFault =>
    have hread : s.rom.read (s.effIdx a) = none := Option.isSome_eq_false_iff.mp hmissing |> Option.isNone_iff_eq_none.mp
    exact ⟨_, execAll_one (execLoad_none hread), rfl, fun _ => rfl⟩

end Sys2Proof.Machine

/-! PROOFS. Beside the core (60_exceptions.md R188, R189): the ROM file and the byte-packing output device. -/

namespace Sys2Proof.Machine

theorem romWordsOfBytes_eq_none (bytes : List (BitVec 8)) : romWordsOfBytes bytes = none ↔ bytes.length % 2 = 1 := by
  induction bytes using romWordsOfBytes.induct with
  | case1 => simp [romWordsOfBytes]
  | case2 b => simp [romWordsOfBytes]
  | case3 hi lo rest ih =>
    rw [romWordsOfBytes, Option.map_eq_none_iff, ih, List.length_cons, List.length_cons]
    omega

/-- The words of a ROM file, each from its two bytes in order (R188). -/
theorem romWordsOfBytes_words {bytes : List (BitVec 8)} {ws : List Word} (h : romWordsOfBytes bytes = some ws) :
    bytes.length = 2 * ws.length ∧
      ∀ i, i < ws.length → ∃ hi lo, bytes[2 * i]? = some hi ∧ bytes[2 * i + 1]? = some lo ∧ ws[i]? = some (hi ++ lo) := by
  induction bytes using romWordsOfBytes.induct generalizing ws with
  | case1 =>
    cases h
    exact ⟨rfl, fun i hi => absurd hi (Nat.not_lt_zero i)⟩
  | case2 b => cases h
  | case3 hi lo rest ih =>
    rw [romWordsOfBytes, Option.map_eq_some_iff] at h
    obtain ⟨ws', hrest, rfl⟩ := h
    obtain ⟨hlen, hwords⟩ := ih hrest
    refine ⟨by simp only [List.length_cons]; omega, fun i hi' => ?_⟩
    cases i with
    | zero => exact ⟨hi, lo, rfl, rfl, rfl⟩
    | succ i => exact hwords i (Nat.lt_of_succ_lt_succ hi')

/-- Settles O50, by induction two bytes at a time. -/
theorem romFileIsBigEndian : Obligations.RomFileIsBigEndian :=
  fun bytes => ⟨romWordsOfBytes_eq_none bytes, fun _ h => romWordsOfBytes_words h⟩

/-- A packed byte's bits from the top are the eight bits in order (R189). -/
theorem getMsbD_packByte : ∀ b7 b6 b5 b4 b3 b2 b1 b0 : Bool, ∀ j < 8,
    [b7, b6, b5, b4, b3, b2, b1, b0][j]? = some ((packByte b7 b6 b5 b4 b3 b2 b1 b0).getMsbD j) := by
  decide

/-- What the byte-packing device leaves unflushed is fewer than eight bits. -/
theorem length_lt_of_ne_eight {bits : List Bool}
    (h : ∀ b7 b6 b5 b4 b3 b2 b1 b0 rest, bits = b7 :: b6 :: b5 :: b4 :: b3 :: b2 :: b1 :: b0 :: rest → False) :
    bits.length < 8 := by
  by_contra hlen
  exact h bits[0] bits[1] bits[2] bits[3] bits[4] bits[5] bits[6] bits[7] (bits.drop 8)
    (by simp only [List.getElem_cons_drop, List.drop_zero])

/-- The flushed bytes, eight bits at a time. -/
theorem packedBytes_bytes (bits : List Bool) :
    (packedBytes bits).length = bits.length / 8 ∧
      ∀ i j, i < bits.length / 8 → j < 8 → ∃ y, (packedBytes bits)[i]? = some y ∧ bits[8 * i + j]? = some (y.getMsbD j) := by
  induction bits using packedBytes.induct with
  | case1 b7 b6 b5 b4 b3 b2 b1 b0 rest ih =>
    obtain ⟨hlen, hbytes⟩ := ih
    have hcount : (b7 :: b6 :: b5 :: b4 :: b3 :: b2 :: b1 :: b0 :: rest).length / 8 = rest.length / 8 + 1 := by
      simp only [List.length_cons]
      omega
    rw [packedBytes, hcount, List.length_cons, hlen]
    refine ⟨rfl, fun i j hi hj => ?_⟩
    cases i with
    | zero =>
      refine ⟨_, rfl, ?_⟩
      rw [Nat.mul_zero, Nat.zero_add, ← getMsbD_packByte b7 b6 b5 b4 b3 b2 b1 b0 j hj]
      exact List.getElem?_append_left (l₁ := [b7, b6, b5, b4, b3, b2, b1, b0]) (by simpa using hj)
    | succ i =>
      obtain ⟨y, hy, hbit⟩ := hbytes i j (Nat.lt_of_succ_lt_succ hi) hj
      refine ⟨y, hy, ?_⟩
      rw [show 8 * (i + 1) + j = 8 * i + j + 8 by omega]
      exact hbit
  | case2 bits h =>
    have hzero : bits.length / 8 = 0 := Nat.div_eq_of_lt (length_lt_of_ne_eight h)
    rw [packedBytes, hzero]
    · exact ⟨rfl, fun i j hi => absurd hi (Nat.not_lt_zero i)⟩
    · exact h

/-- Settles O51, by induction eight bits at a time. -/
theorem outputBitsPackMostSignificantFirst : Obligations.OutputBitsPackMostSignificantFirst := packedBytes_bytes

end Sys2Proof.Machine

/-! PROOFS. Every request is completed (60_exceptions.md R179): by induction on how many boundaries the device still lets
pass. -/

namespace Sys2Proof.Machine

/-- A core, or one that has ended: it never comes to a refused step (R166). -/
def State.CanStep (s : State) : Prop := s.rom.len ≠ 0 ∨ s.status ≠ .running

theorem canStep_of_step {s t : State} (h : s.CanStep) (ht : step s = .next t) : t.CanStep := by
  obtain hl | hs := h
  · exact .inl (by rwa [(step_config ht).1])
  · obtain rfl : s.deviceTurn = t := Host.Outcome.next.inj ((step_of_coreStep s (coreStep_stopped hs)).symm.trans ht)
    exact .inr (by rwa [deviceTurn_status])

/-- After `n` steps from `s` the outstanding request is completed, with no further request in between. -/
def State.CompletesIn (s : State) (n : Nat) : Prop :=
  ∃ (v : Bool) (t : State) (es : List Event), Host.Core.run Sys2Proof.core n s = .next t ∧
    t.events = s.events ++ es ++ [.inputCompletion v] ∧ requestCount es = 0 ∧
    t.awaiting = false ∧ t.inReady = true ∧ t.inBit = v

/-- A step at whose boundary a completion is due completes the request. -/
theorem completesIn_one {s u : State} {v : Bool} (ha : s.awaiting = true) (hu : coreStep s = .next u)
    (hdue : deviceDue u.inputDevice = some v) : s.CompletesIn 1 := by
  have hua := coreStep_awaiting s hu ha
  obtain ⟨es, hes, -, -, hnone⟩ := coreStep_events hu
  obtain ⟨hready, hbit, hdone⟩ := deviceTurn_delivers hdue hua
  refine ⟨v, u.deviceTurn, es, run_next s 0 (step_of_coreStep s hu), ?_, hnone ha, hdone, hready, hbit⟩
  rw [deviceTurn_due u v hua hdue, complete_events, deviceMoved_events, hes]

/-- A step at whose boundary none is due puts the completion off by that step. -/
theorem completesIn_succ {s u : State} {n : Nat} (ha : s.awaiting = true) (hu : coreStep s = .next u)
    (hquiet : ∀ v, deviceDue u.inputDevice ≠ some v) (h : u.deviceTurn.CompletesIn n) : s.CompletesIn (n + 1) := by
  obtain ⟨es, hes, -, -, hnone⟩ := coreStep_events hu
  obtain ⟨v, t, fs, hrun, hevents, hfs, hdone⟩ := h
  refine ⟨v, t, es ++ fs, (run_next s n (step_of_coreStep s hu)).trans hrun, ?_, ?_, hdone⟩
  · rw [hevents, deviceTurn_quiet u (.inr hquiet), deviceMoved_events, hes, List.append_assoc s.events]
  · rw [requestCount_append, hnone ha, hfs]

/-- Each boundary brings an outstanding request's completion nearer (R179). -/
theorem completesIn_of_awaiting {s : State} (ha : s.awaiting = true) (hcan : s.CanStep) :
    ∃ n, n ≤ deviceLeft s.inputDevice + 1 ∧ s.CompletesIn n := by
  induction hleft : deviceLeft s.inputDevice using Nat.strong_induction_on generalizing s with
  | _ m ih =>
    obtain ⟨u, hu⟩ := coreStep_answers hcan
    by_cases hdue : ∃ v, deviceDue u.inputDevice = some v
    · obtain ⟨v, hv⟩ := hdue
      exact ⟨1, by omega, completesIn_one ha hu hv⟩
    · have hquiet := not_exists.mp hdue
      have hua := coreStep_awaiting s hu ha
      have hta : u.deviceTurn.awaiting = true := by rw [deviceTurn_quiet u (.inr hquiet), deviceMoved_awaiting, hua]
      have hnearer : deviceLeft u.deviceTurn.inputDevice + 1 = m := by
        rw [deviceTurn_inputDevice, hua, deviceLeft_passed u.inputDevice hquiet, coreStep_inputDevice s hu, hleft]
      obtain ⟨n, hn, hcompletes⟩ :=
        ih _ (by omega) hta (canStep_of_step hcan (step_of_coreStep s hu)) rfl
      exact ⟨n + 1, by omega, completesIn_succ ha hu hquiet hcompletes⟩

/-- Settles O52: the bound is what the device still lets pass. -/
theorem everyRequestIsCompleted : Obligations.EveryRequestIsCompleted := by
  intro s ha hcan
  obtain ⟨n, hn, v, t, es, hcompletes⟩ := completesIn_of_awaiting ha hcan
  exact ⟨n, v, t, es, hn, hcompletes⟩

/-- Settles O53: a run keeps on being able to step, so O52 holds of every state it reaches. -/
theorem everyRunIsWeaklyFair : Obligations.EveryRunIsWeaklyFair := by
  intro s hcan n t hrun ha
  obtain ⟨k, v, u, es, -, hk, -, -, hdone, -, -⟩ :=
    everyRequestIsCompleted t ha (run_keeps (P := State.CanStep) (fun _ _ => canStep_of_step) hcan hrun)
  exact ⟨k, u, hk, hdone⟩

end Sys2Proof.Machine
